-- ==== Sys2Proof/Word.lean ====
section
/-! DEFINITION. The word types of the block: register and memory bytes are 8 bits, instruction words and addresses held
in registers are 16 bits (00_scope.md R3, R10), and the decoder's fields are nibbles, a byte and a 12-bit address
(30_encoding.md R62). Every value is unsigned (R18), so a bit vector is read as a number with `toNat`. -/
namespace Sys2Proof

/-- `u8` of R18: a general register, a timer or a memory cell. -/
abbrev Byte := BitVec 8

/-- `u16` of R18: an instruction word, `PC`, `I` or a stack entry. -/
abbrev Word := BitVec 16

/-- A 4-bit field of an instruction word (glossary, "Nibble"); as a register field it names one of V0..VF (R64). -/
abbrev Nibble := BitVec 4

/-- The 12-bit address immediate `nnn` (R63). -/
abbrev Addr12 := BitVec 12

end Sys2Proof
end

