-- ==== Sys2Proof/Syntax.lean ====
section
/-! DEFINITION. The instructions: one constructor for each of the 34 rows of spec/opcode_table.json (30_encoding.md R66),
with the operand fields of R62 as its arguments, each at its exact width. So every term of `Instr` is an instruction the
encoding admits: R64 makes all 16 register fields valid, and R63 gives the immediates no bound but their width. -/
namespace Sys2Proof

inductive Instr where
  /-- `00E0` clear screen, R86. -/
  | cls
  /-- `00EE` return from subroutine, R91. -/
  | ret
  /-- `1nnn` jump, R92. -/
  | jp (nnn : Addr12)
  /-- `2nnn` call subroutine, R93. -/
  | call (nnn : Addr12)
  /-- `3xkk` skip if `V[x] = kk`, R94. -/
  | seImm (x : Nibble) (kk : Byte)
  /-- `4xkk` skip if `V[x] ≠ kk`, R95. -/
  | sneImm (x : Nibble) (kk : Byte)
  /-- `5xy0` skip if `V[x] = V[y]`, R96. -/
  | seReg (x y : Nibble)
  /-- `6xkk` load immediate, R100. -/
  | ldImm (x : Nibble) (kk : Byte)
  /-- `7xkk` add immediate, R101. -/
  | addImm (x : Nibble) (kk : Byte)
  /-- `8xy0` copy, R102. -/
  | ldReg (x y : Nibble)
  /-- `8xy1` bitwise OR, R103. -/
  | orReg (x y : Nibble)
  /-- `8xy2` bitwise AND, R104. -/
  | andReg (x y : Nibble)
  /-- `8xy3` bitwise XOR, R105. -/
  | xorReg (x y : Nibble)
  /-- `8xy4` add with carry, R106. -/
  | addReg (x y : Nibble)
  /-- `8xy5` subtract with no-borrow flag, R107. -/
  | sub (x y : Nibble)
  /-- `8xy6` shift right by one; `y` is a don't-care field the word carries, R70, R108. -/
  | shr (x y : Nibble)
  /-- `8xy7` reverse subtract, R109. -/
  | subn (x y : Nibble)
  /-- `8xyE` shift left by one; `y` is a don't-care field the word carries, R70, R110. -/
  | shl (x y : Nibble)
  /-- `9xy0` skip if `V[x] ≠ V[y]`, R97. -/
  | sneReg (x y : Nibble)
  /-- `Annn` set the address register, R116. -/
  | ldI (nnn : Addr12)
  /-- `Bnnn` jump with offset `V[0]`, R98. -/
  | jpV0 (nnn : Addr12)
  /-- `Cxkk` masked random byte, R111. -/
  | rnd (x : Nibble) (kk : Byte)
  /-- `Dxyn` draw sprite, R87. -/
  | drw (x y n : Nibble)
  /-- `Ex9E` skip if key pressed, R122. -/
  | skp (x : Nibble)
  /-- `ExA1` skip if key not pressed, R123. -/
  | sknp (x : Nibble)
  /-- `Fx07` load delay timer into register, R124. -/
  | ldVxDt (x : Nibble)
  /-- `Fx0A` wait for a key, R127. -/
  | ldVxK (x : Nibble)
  /-- `Fx15` load register into delay timer, R125. -/
  | ldDtVx (x : Nibble)
  /-- `Fx18` load register into sound timer, R126. -/
  | ldStVx (x : Nibble)
  /-- `Fx1E` add register to address register, R117. -/
  | addIVx (x : Nibble)
  /-- `Fx29` address of the built-in digit sprite, R118. -/
  | ldFVx (x : Nibble)
  /-- `Fx33` store binary-coded decimal, R119. -/
  | ldBVx (x : Nibble)
  /-- `Fx55` block store of `V[0..x]`, R120. -/
  | ldMemVx (x : Nibble)
  /-- `Fx65` block load of `V[0..x]`, R121. -/
  | ldVxMem (x : Nibble)
deriving DecidableEq, Repr

/-- The mnemonic of the instruction's row in spec/opcode_table.json. -/
def Instr.mnemonic : Instr → String
  | .cls => "CLS"
  | .ret => "RET"
  | .jp _ => "JP"
  | .call _ => "CALL"
  | .seImm _ _ => "SE_IMM"
  | .sneImm _ _ => "SNE_IMM"
  | .seReg _ _ => "SE_REG"
  | .ldImm _ _ => "LD_IMM"
  | .addImm _ _ => "ADD_IMM"
  | .ldReg _ _ => "LD_REG"
  | .orReg _ _ => "OR"
  | .andReg _ _ => "AND"
  | .xorReg _ _ => "XOR"
  | .addReg _ _ => "ADD_REG"
  | .sub _ _ => "SUB"
  | .shr _ _ => "SHR"
  | .subn _ _ => "SUBN"
  | .shl _ _ => "SHL"
  | .sneReg _ _ => "SNE_REG"
  | .ldI _ => "LD_I"
  | .jpV0 _ => "JP_V0"
  | .rnd _ _ => "RND"
  | .drw _ _ _ => "DRW"
  | .skp _ => "SKP"
  | .sknp _ => "SKNP"
  | .ldVxDt _ => "LD_VX_DT"
  | .ldVxK _ => "LD_VX_K"
  | .ldDtVx _ => "LD_DT_VX"
  | .ldStVx _ => "LD_ST_VX"
  | .addIVx _ => "ADD_I_VX"
  | .ldFVx _ => "LD_F_VX"
  | .ldBVx _ => "LD_B_VX"
  | .ldMemVx _ => "LD_MEM_VX"
  | .ldVxMem _ => "LD_VX_MEM"

end Sys2Proof
end

