-- ==== Sys2Proof/Decode.lean ====
section
/-! DEFINITION. The decoder: the nibble splitter (30_encoding.md R62), the classification by family and sub-selector
(R65 to R71), the byte order of a word (20_memory.md R49), then the encoder written from the same map (R66), and the
opcode map itself as a table of mask and value. Patterns other than `1nnn`, `6xkk`, `7xkk` are the spec's from general
knowledge (log 11). -/
namespace Sys2Proof

/-- The six overlapping fields of R62. -/
structure Fields where
  /-- `w[15:12]`, the family. -/
  family : Nibble
  /-- `w[11:8]`. -/
  x : Nibble
  /-- `w[7:4]`. -/
  y : Nibble
  /-- `w[3:0]`. -/
  n : Nibble
  /-- `w[7:0]`. -/
  kk : Byte
  /-- `w[11:0]`. -/
  nnn : Addr12
deriving DecidableEq, Repr

/-- The nibble splitter (R62): pure and total. -/
def split (w : Word) : Fields where
  family := w.extractLsb' 12 4
  x := w.extractLsb' 8 4
  y := w.extractLsb' 4 4
  n := w.extractLsb' 0 4
  kk := w.extractLsb' 0 8
  nnn := w.extractLsb' 0 12

/-- Family 0: the whole word is the sub-selector, and only `00E0` and `00EE` are instructions (R65, R68). -/
def classify0 (d : Fields) : Option Instr :=
  if d.nnn = 0x0E0#12 then some .cls
  else if d.nnn = 0x0EE#12 then some .ret
  else none

/-- Families 5 and 9: `n` must be 0 (R65, R69). -/
def classifyN0 (d : Fields) (i : Instr) : Option Instr :=
  if d.n = 0#4 then some i else none

/-- Family 8: `n` is the sub-selector (R65, R69). -/
def classify8 (d : Fields) : Option Instr :=
  match d.n.toNat with
  | 0x0 => some (.ldReg d.x d.y)
  | 0x1 => some (.orReg d.x d.y)
  | 0x2 => some (.andReg d.x d.y)
  | 0x3 => some (.xorReg d.x d.y)
  | 0x4 => some (.addReg d.x d.y)
  | 0x5 => some (.sub d.x d.y)
  | 0x6 => some (.shr d.x d.y)
  | 0x7 => some (.subn d.x d.y)
  | 0xE => some (.shl d.x d.y)
  | _ => none

/-- Family E: `kk` is the sub-selector (R65, R69). -/
def classifyE (d : Fields) : Option Instr :=
  match d.kk.toNat with
  | 0x9E => some (.skp d.x)
  | 0xA1 => some (.sknp d.x)
  | _ => none

/-- Family F: `kk` is the sub-selector (R65, R69). -/
def classifyF (d : Fields) : Option Instr :=
  match d.kk.toNat with
  | 0x07 => some (.ldVxDt d.x)
  | 0x0A => some (.ldVxK d.x)
  | 0x15 => some (.ldDtVx d.x)
  | 0x18 => some (.ldStVx d.x)
  | 0x1E => some (.addIVx d.x)
  | 0x29 => some (.ldFVx d.x)
  | 0x33 => some (.ldBVx d.x)
  | 0x55 => some (.ldMemVx d.x)
  | 0x65 => some (.ldVxMem d.x)
  | _ => none

/-- Classification of the split fields: first on the family, then on the sub-selector (R65). -/
def classifyFields (d : Fields) : Option Instr :=
  match d.family.toNat with
  | 0x0 => classify0 d
  | 0x1 => some (.jp d.nnn)
  | 0x2 => some (.call d.nnn)
  | 0x3 => some (.seImm d.x d.kk)
  | 0x4 => some (.sneImm d.x d.kk)
  | 0x5 => classifyN0 d (.seReg d.x d.y)
  | 0x6 => some (.ldImm d.x d.kk)
  | 0x7 => some (.addImm d.x d.kk)
  | 0x8 => classify8 d
  | 0x9 => classifyN0 d (.sneReg d.x d.y)
  | 0xA => some (.ldI d.nnn)
  | 0xB => some (.jpV0 d.nnn)
  | 0xC => some (.rnd d.x d.kk)
  | 0xD => some (.drw d.x d.y d.n)
  | 0xE => classifyE d
  | _ => classifyF d

/-- The instruction a word stands for, or `none` where it is a decode error (R65 to R71). -/
def decodeWord (w : Word) : Option Instr :=
  classifyFields (split w)

/-- The word of two consecutive bytes, the one at the lower address first: big-endian (R49). -/
def joinBytes (hi lo : Byte) : Word :=
  hi ++ lo

/-- The two bytes of a word in memory order: big-endian (R49). -/
def wordBytes (w : Word) : List Byte :=
  [w.extractLsb' 8 8, w.extractLsb' 0 8]

/-- Why bytes are no instruction. -/
inductive Reject where
  /-- Fewer than the two bytes of R61 are left. -/
  | truncated (left : Nat)
  /-- The word matches no row of the opcode map (R67). -/
  | unknownWord (w : Word)
deriving DecidableEq, Repr

/-- The decoder over bytes, total: the first instruction and the bytes after it, or the reason there is none. -/
def decode : List Byte → Except Reject (Instr × List Byte)
  | hi :: lo :: rest =>
    match decodeWord (joinBytes hi lo) with
    | some i => .ok (i, rest)
    | none => .error (.unknownWord (joinBytes hi lo))
  | bytes => .error (.truncated bytes.length)

/-- The word of an instruction, field by field from the patterns of R66. -/
def encode : Instr → Word
  | .cls => 0x0#4 ++ 0x0E0#12
  | .ret => 0x0#4 ++ 0x0EE#12
  | .jp nnn => 0x1#4 ++ nnn
  | .call nnn => 0x2#4 ++ nnn
  | .seImm x kk => 0x3#4 ++ (x ++ kk)
  | .sneImm x kk => 0x4#4 ++ (x ++ kk)
  | .seReg x y => 0x5#4 ++ (x ++ (y ++ 0x0#4))
  | .ldImm x kk => 0x6#4 ++ (x ++ kk)
  | .addImm x kk => 0x7#4 ++ (x ++ kk)
  | .ldReg x y => 0x8#4 ++ (x ++ (y ++ 0x0#4))
  | .orReg x y => 0x8#4 ++ (x ++ (y ++ 0x1#4))
  | .andReg x y => 0x8#4 ++ (x ++ (y ++ 0x2#4))
  | .xorReg x y => 0x8#4 ++ (x ++ (y ++ 0x3#4))
  | .addReg x y => 0x8#4 ++ (x ++ (y ++ 0x4#4))
  | .sub x y => 0x8#4 ++ (x ++ (y ++ 0x5#4))
  | .shr x y => 0x8#4 ++ (x ++ (y ++ 0x6#4))
  | .subn x y => 0x8#4 ++ (x ++ (y ++ 0x7#4))
  | .shl x y => 0x8#4 ++ (x ++ (y ++ 0xE#4))
  | .sneReg x y => 0x9#4 ++ (x ++ (y ++ 0x0#4))
  | .ldI nnn => 0xA#4 ++ nnn
  | .jpV0 nnn => 0xB#4 ++ nnn
  | .rnd x kk => 0xC#4 ++ (x ++ kk)
  | .drw x y n => 0xD#4 ++ (x ++ (y ++ n))
  | .skp x => 0xE#4 ++ (x ++ 0x9E#8)
  | .sknp x => 0xE#4 ++ (x ++ 0xA1#8)
  | .ldVxDt x => 0xF#4 ++ (x ++ 0x07#8)
  | .ldVxK x => 0xF#4 ++ (x ++ 0x0A#8)
  | .ldDtVx x => 0xF#4 ++ (x ++ 0x15#8)
  | .ldStVx x => 0xF#4 ++ (x ++ 0x18#8)
  | .addIVx x => 0xF#4 ++ (x ++ 0x1E#8)
  | .ldFVx x => 0xF#4 ++ (x ++ 0x29#8)
  | .ldBVx x => 0xF#4 ++ (x ++ 0x33#8)
  | .ldMemVx x => 0xF#4 ++ (x ++ 0x55#8)
  | .ldVxMem x => 0xF#4 ++ (x ++ 0x65#8)

/-- The bytes of an instruction as memory holds them (R49, R61). -/
def encodeBytes (i : Instr) : List Byte :=
  wordBytes (encode i)

/-- One row of the opcode map (R66): a word belongs to it when `w &&& mask = value`. -/
structure OpRow where
  mask : Word
  value : Word
  mnemonic : String
deriving DecidableEq, Repr

/-- Rows 1 to 17 of R66. -/
def opcodeMapLow : List OpRow :=
  [⟨0xFFFF, 0x00E0, "CLS"⟩, ⟨0xFFFF, 0x00EE, "RET"⟩, ⟨0xF000, 0x1000, "JP"⟩, ⟨0xF000, 0x2000, "CALL"⟩,
   ⟨0xF000, 0x3000, "SE_IMM"⟩, ⟨0xF000, 0x4000, "SNE_IMM"⟩, ⟨0xF00F, 0x5000, "SE_REG"⟩,
   ⟨0xF000, 0x6000, "LD_IMM"⟩, ⟨0xF000, 0x7000, "ADD_IMM"⟩, ⟨0xF00F, 0x8000, "LD_REG"⟩,
   ⟨0xF00F, 0x8001, "OR"⟩, ⟨0xF00F, 0x8002, "AND"⟩, ⟨0xF00F, 0x8003, "XOR"⟩,
   ⟨0xF00F, 0x8004, "ADD_REG"⟩, ⟨0xF00F, 0x8005, "SUB"⟩, ⟨0xF00F, 0x8006, "SHR"⟩, ⟨0xF00F, 0x8007, "SUBN"⟩]

/-- Rows 18 to 34 of R66. -/
def opcodeMapHigh : List OpRow :=
  [⟨0xF00F, 0x800E, "SHL"⟩, ⟨0xF00F, 0x9000, "SNE_REG"⟩, ⟨0xF000, 0xA000, "LD_I"⟩, ⟨0xF000, 0xB000, "JP_V0"⟩,
   ⟨0xF000, 0xC000, "RND"⟩, ⟨0xF000, 0xD000, "DRW"⟩, ⟨0xF0FF, 0xE09E, "SKP"⟩, ⟨0xF0FF, 0xE0A1, "SKNP"⟩,
   ⟨0xF0FF, 0xF007, "LD_VX_DT"⟩, ⟨0xF0FF, 0xF00A, "LD_VX_K"⟩, ⟨0xF0FF, 0xF015, "LD_DT_VX"⟩,
   ⟨0xF0FF, 0xF018, "LD_ST_VX"⟩, ⟨0xF0FF, 0xF01E, "ADD_I_VX"⟩, ⟨0xF0FF, 0xF029, "LD_F_VX"⟩,
   ⟨0xF0FF, 0xF033, "LD_B_VX"⟩, ⟨0xF0FF, 0xF055, "LD_MEM_VX"⟩, ⟨0xF0FF, 0xF065, "LD_VX_MEM"⟩]

/-- The opcode map of R66. -/
def opcodeMap : List OpRow :=
  opcodeMapLow ++ opcodeMapHigh

/-- R65: the word matches the row. -/
abbrev OpRow.Matches (r : OpRow) (w : Word) : Prop :=
  w &&& r.mask = r.value

/-- The host's reading of a table word: the bits of `w` below `nbits`, zeros above, laid out as memory holds them and given
to the decoder. -/
def decodeTableWord (nbits w : Nat) : Option Instr :=
  match decode (wordBytes (BitVec.ofNat 16 (w % 2 ^ nbits))) with
  | .ok (i, _) => some i
  | .error _ => none

end Sys2Proof
end

