-- ==== Sys2Proof/Config.lean ====
section
/-! DEFINITION. What an implementation fixes: the named parameters of 00_scope.md section 4 with the spec's defaults, and
the one free value of the block, the environment's random byte (40_step_sequencer.md R81). The parameters are plain data;
a state carries its own copy (log 1), so every statement about a state holds for every choice of them. -/
namespace Sys2Proof

/-- `TIMER_COUPLING` (R16): who decrements the timers, each step itself or the host's TimerTick port. -/
inductive TimerCoupling where
  | perStep
  | external
deriving DecidableEq, Repr

/-- The parameters of 00_scope.md section 4 that the source leaves open (R13 to R16). -/
structure Params where
  /-- `LOAD_ADDR` (R13): where the image is copied and where `PC` starts. -/
  loadAddr : Word
  /-- `FONT_BASE` (R14): the first address of the built-in font table. -/
  fontBase : Word
  /-- `FONT_DATA` (R14): the 80 bytes of the font table. -/
  fontData : Vector Byte 80
  /-- `STACK_LIMIT` (R15): `none` is unbounded. -/
  stackLimit : Option Nat
  /-- `TIMER_COUPLING` (R16). -/
  timerCoupling : TimerCoupling
deriving DecidableEq, Repr

/-- The glyphs of digits 0 to 7 of R152's table. PRESUMED by the spec ([from general knowledge]; log 2), unsafe. -/
def fontGlyphsLow : List (List Byte) :=
  [[0xF0, 0x90, 0x90, 0x90, 0xF0], [0x20, 0x60, 0x20, 0x20, 0x70],
   [0xF0, 0x10, 0xF0, 0x80, 0xF0], [0xF0, 0x10, 0xF0, 0x10, 0xF0],
   [0x90, 0x90, 0xF0, 0x10, 0x10], [0xF0, 0x80, 0xF0, 0x10, 0xF0],
   [0xF0, 0x80, 0xF0, 0x90, 0xF0], [0xF0, 0x10, 0x20, 0x40, 0x40]]

/-- The glyphs of digits 8 to F of R152's table. PRESUMED by the spec ([from general knowledge]; log 2), unsafe. -/
def fontGlyphsHigh : List (List Byte) :=
  [[0xF0, 0x90, 0xF0, 0x90, 0xF0], [0xF0, 0x90, 0xF0, 0x10, 0xF0],
   [0xF0, 0x90, 0xF0, 0x90, 0x90], [0xE0, 0x90, 0xE0, 0x90, 0xE0],
   [0xF0, 0x80, 0x80, 0x80, 0xF0], [0xE0, 0x90, 0x90, 0x90, 0xE0],
   [0xF0, 0x80, 0xF0, 0x80, 0xF0], [0xF0, 0x80, 0xF0, 0x80, 0x80]]

/-- The default `FONT_DATA`: glyph `d` at bytes `5d` to `5d + 4` (R152). -/
def standardFont : Vector Byte 80 :=
  ⟨(fontGlyphsLow ++ fontGlyphsHigh).flatten.toArray, by decide⟩

/-- The spec's defaults for the parameters (00_scope.md section 4). PRESUMED by the spec for `LOAD_ADDR`, `FONT_BASE`
and `FONT_DATA` (D5, D6; log 2), unsafe. -/
def Params.standard : Params where
  loadAddr := 0x200
  fontBase := 0x000
  fontData := standardFont
  stackLimit := none
  timerCoupling := .perStep

/-- The free value of the block: the random byte the environment supplies to the `k`-th step (R23, R81, "a draw under no
law"). It has no body, so no proof can see its value (log 3), safe. -/
opaque Config.freeRand8 : Nat → Byte

end Sys2Proof
end

