-- ==== Sys2Proof/Machine/State.lean ====
section
/-! DEFINITION. The state of the block: every piece 10_state.md names (R28 to R40), as plain data, with the parameters
(log 1) and the Random port's input (log 3) beside it; the ways a step ends; and the state after reset. -/
namespace Sys2Proof.Machine

/-- The block raises exactly these six faults (60_exceptions.md R129), each with the information of R129's last column.
As an answer of `exec` one is the spec's `raise` (00_scope.md R21); `step` turns it into the halted NEXT state of R82, and
answers a fault itself only where the block is already halted (R83): the fault of its record. Each is safe: the model stops
where the spec says the block stops (log 6). -/
inductive Fault where
  /-- Code 1, the classify phase, with the word that matches no row (R130). Safe. -/
  | decodeError (w : Word)
  /-- Code 2, `RET` with an empty stack (R131). Safe. -/
  | stackUnderflow
  /-- Code 3, `CALL` with the stack at `STACK_LIMIT`, with the limit (R133). Safe. -/
  | stackOverflow (limit : Nat)
  /-- Code 4, the fetch, DRW, LD_B_VX, LD_MEM_VX and LD_VX_MEM, with the lowest out-of-range address (R134, R53). Safe. -/
  | memoryOutOfRange (addr : Nat)
  /-- Code 5, the fetch at an odd `PC`, with that `PC` (R135). Safe. -/
  | pcMisaligned (pc : Word)
  /-- Code 6, `SKP` and `SKNP`, with the value that is no key (R132). Safe. -/
  | keyIndexOutOfRange (k : Byte)
deriving DecidableEq, Repr

/-- The spec's number for the fault (R129, D27). -/
def Fault.code : Fault → Nat
  | .decodeError _ => 1
  | .stackUnderflow => 2
  | .stackOverflow _ => 3
  | .memoryOutOfRange _ => 4
  | .pcMisaligned _ => 5
  | .keyIndexOutOfRange _ => 6

/-- Reasons an instruction has no meaning. -/
inductive Refusal where
  /-- Raised by an arm of `exec` for an instruction not modelled yet: there is none left. Safe. -/
  | notModelled (mnemonic : String)
deriving DecidableEq, Repr

/-- The fault record of R40 and R82. -/
structure FaultRecord where
  /-- The kind with its information; its code is `Fault.code`. -/
  fault : Fault
  /-- The address of the instruction word; for a fetch fault the bad `PC` itself (R138). -/
  pc : Word
  /-- The instruction word, if the fetch phase completed (R82). -/
  word : Option Word
deriving DecidableEq, Repr

/-- `STATUS` (R40). -/
inductive RunStatus where
  | running
  | halted (f : FaultRecord)
deriving DecidableEq, Repr

/-- The result a step returns to its caller (R80); no state holds it (R42; log 7). -/
inductive StepResult where
  | continues
  | waitingForKey (x : Nibble)
  | halted (f : FaultRecord)
deriving DecidableEq, Repr

/-- The framebuffer (R38): 32 rows of 64 one-bit cells. -/
abbrev FrameBuffer := Vector (Vector Bool 64) 32

/-- The architectural state (10_state.md), with the parameters and the Random port. -/
structure State where
  /-- `V[0..15]` (R28); `V[15]` is VF (R29). -/
  v : Vector Byte 16
  /-- `I` (R30). -/
  i : Word
  /-- `PC` (R31). -/
  pc : Word
  /-- `STACK` (R33), the top entry first (log 8). -/
  stack : List Word
  /-- `DT` (R34). -/
  dt : Byte
  /-- `ST` (R35). -/
  st : Byte
  /-- `KEYS[0..15]` (R36). -/
  keys : Vector Bool 16
  /-- `KEY_ANY` (R37). -/
  keyAny : Bool
  /-- `KEY_LAST` (R37). -/
  keyLast : Nibble
  /-- `FB` (R38). -/
  fb : FrameBuffer
  /-- `M` (R39): the bytes that differ from the background, in rising order of address (log 14). -/
  mem : List Host.Cell
  /-- `STATUS` (R40). -/
  status : RunStatus
  /-- The parameters the block was built with; no step writes them (R41; log 1). -/
  params : Params
  /-- The Random port (R148): draws already supplied for the coming steps, oldest first (log 3). -/
  randIn : List Byte
  /-- Completed steps, the index of the next free draw (R81; log 3). -/
  draws : Nat
deriving DecidableEq, Repr

/-- The state after construction with the default parameters and an empty image (70_reset_and_hazards.md R151); the register
values are the spec's decisions D2, D3 (log 4), `randIn` and `draws` are DESIGN CHOICE (log 3). -/
def State.reset : State where
  v := Vector.replicate 16 0
  i := 0
  pc := Params.standard.loadAddr
  stack := []
  dt := 0
  st := 0
  keys := Vector.replicate 16 false
  keyAny := false
  keyLast := 0
  fb := Vector.replicate 32 (Vector.replicate 64 false)
  mem := []
  status := .running
  params := Params.standard
  randIn := []
  draws := 0

end Sys2Proof.Machine
end

