-- ==== Sys2Proof/Machine/Ops.lean ====
section
/-! DEFINITION. The named operations over the state: registers, memory, framebuffer, stack, timers, the Random port, and
taking a fault, each once. -/
namespace Sys2Proof.Machine

/-- What a meaning answers. -/
abbrev Out := Host.Outcome State Fault Refusal

/-! ### Registers (R28 to R35, R40) -/

/-- `V[x]` (R28). -/
def State.getV (s : State) (x : Nibble) : Byte := s.v[x.toNat]'x.isLt

/-- `V[x] <- b` (R28). -/
def State.setV (s : State) (x : Nibble) (b : Byte) : State := { s with v := s.v.set x.toNat b x.isLt }

/-- `I <- w` (R30). -/
def State.setI (s : State) (w : Word) : State := { s with i := w }

/-- `PC <- w` (R31). -/
def State.setPC (s : State) (w : Word) : State := { s with pc := w }

/-- The stack replaced (R33). -/
def State.setStack (s : State) (l : List Word) : State := { s with stack := l }

/-- `DT <- b` (R34). -/
def State.setDT (s : State) (b : Byte) : State := { s with dt := b }

/-- `ST <- b` (R35). -/
def State.setST (s : State) (b : Byte) : State := { s with st := b }

/-- The framebuffer replaced (R38). -/
def State.setFB (s : State) (f : FrameBuffer) : State := { s with fb := f }

/-- The memory replaced (R39). -/
def State.setMem (s : State) (m : List Host.Cell) : State := { s with mem := m }

/-- `STATUS <- r` (R40). -/
def State.setStatus (s : State) (r : RunStatus) : State := { s with status := r }

/-! ### Memory (R20, R39, R45, R52): a canonical list over a background (log 14) -/

/-- The size of the address space (R11). -/
def memSize : Nat := 0x1000

/-- What an unlisted address reads as: the font table where construction puts it, else 0 (R153; log 5). -/
def background (p : Params) (a : Nat) : Byte :=
  if p.fontBase.toNat ≤ a then (p.fontData[a - p.fontBase.toNat]?).getD 0 else 0

/-- The byte a list of cells gives an address, if it lists it. -/
def lookupCell : List Host.Cell → Nat → Option Byte
  | [], _ => none
  | (k, b) :: m, a => if k = a then some b else lookupCell m a

/-- The cells with `a` holding `b`, in rising order of address. -/
def insertCell (a : Nat) (b : Byte) : List Host.Cell → List Host.Cell
  | [] => [(a, b)]
  | (k, c) :: m =>
    if a < k then (a, b) :: (k, c) :: m
    else if a = k then (a, b) :: m
    else (k, c) :: insertCell a b m

/-- The cells without `a`. -/
def eraseCell (a : Nat) : List Host.Cell → List Host.Cell
  | [] => []
  | (k, c) :: m => if k = a then m else (k, c) :: eraseCell a m

/-- `M[a]` of a list of cells. -/
def readCells (p : Params) (m : List Host.Cell) (a : Nat) : Byte :=
  (lookupCell m a).getD (background p a)

/-- `M[a] <- b` on a list of cells; the value of the background is not listed. -/
def writeCells (p : Params) (m : List Host.Cell) (a : Nat) (b : Byte) : List Host.Cell :=
  if b = background p a then eraseCell a m else insertCell a b m

/-- The addresses after `lo` are strictly rising. -/
def risingFrom (lo : Nat) : List Host.Cell → Bool
  | [] => true
  | (k, _) :: m => decide (lo ≤ k) && risingFrom (k + 1) m

/-- The canonical form: addresses strictly rising and below 0x1000, no cell equal to its background. -/
def Memory.wf (p : Params) (m : List Host.Cell) : Bool :=
  risingFrom 0 m && m.all (fun c => decide (c.1 < memSize) && decide (c.2 ≠ background p c.1))

/-- `M[a]` (R39), for an address that has been checked. -/
def State.byteAt (s : State) (a : Nat) : Byte := readCells s.params s.mem a

/-- `M[a] <- b` (R39); an address outside memory is left alone. -/
def State.storeByte (s : State) (a : Nat) (b : Byte) : State :=
  if a < memSize then s.setMem (writeCells s.params s.mem a b) else s

/-- `MemRead(a, 1)` (R20). -/
def memRead (s : State) (a : Nat) : Except Fault Byte :=
  if a < memSize then .ok (s.byteAt a) else .error (.memoryOutOfRange a)

/-- The check of every address of an access of `len` bytes at `base`, before any of them (R53): the fault with the lowest
out-of-range address, or none. -/
def rangeFault (base len : Nat) : Option Fault :=
  if len = 0 ∨ base + len ≤ memSize then none else some (.memoryOutOfRange (max base memSize))

/-- Go on with `k` once the whole access is in range (R53). -/
def withRange (base len : Nat) (k : Out) : Out :=
  match rangeFault base len with
  | some f => .fault f
  | none => k

/-- The bytes at `base` and up, lowest address first (R50). -/
def State.loadBytes (s : State) (base len : Nat) : List Byte :=
  (List.range len).map fun r => s.byteAt (base + r)

/-- Store bytes at `base` and up, lowest address first (R50). -/
def State.storeBytes (s : State) (base : Nat) : List Byte → State
  | [] => s
  | b :: bs => (s.storeByte base b).storeBytes (base + 1) bs

/-- `V[k], V[k+1], ...` from bytes, lowest register first (R121); registers past 15 do not exist. -/
def State.loadRegs (s : State) (k : Nat) : List Byte → State
  | [] => s
  | b :: bs => State.loadRegs (if k < 16 then s.setV (BitVec.ofNat 4 k) b else s) (k + 1) bs

/-- `V[0], ..., V[x]`, lowest register first (R120). -/
def State.regsUpTo (s : State) (x : Nibble) : List Byte :=
  (List.range (x.toNat + 1)).map fun k => s.getV (BitVec.ofNat 4 k)

/-! ### Framebuffer (R38, R86, R87) -/

/-- `FB(cx, cy)`; a place outside the grid is no cell and reads as not set. -/
def fbCell (f : FrameBuffer) (cx cy : Nat) : Bool :=
  if h : cx < 64 ∧ cy < 32 then (f[cy]'h.2)[cx]'h.1 else false

/-- `FB(cx, cy) <- b`; a place outside the grid is left alone (R89). -/
def fbSet (f : FrameBuffer) (cx cy : Nat) (b : Bool) : FrameBuffer :=
  if h : cx < 64 ∧ cy < 32 then f.set cy ((f[cy]'h.2).set cx b h.1) h.2 else f

/-- Every cell 0 (R38, R86). -/
def fbClear : FrameBuffer := Vector.replicate 32 (Vector.replicate 64 false)

/-- One set sprite bit at `(cx, cy)`: XOR the cell and note a collision, unless it is clipped (R87, R89). -/
def drawCell (cx cy : Nat) (acc : FrameBuffer × Bool) : FrameBuffer × Bool :=
  if cx < 64 ∧ cy < 32 then
    (fbSet acc.1 cx cy (!fbCell acc.1 cx cy), acc.2 || fbCell acc.1 cx cy)
  else acc

/-- Sprite bit `c` of a row byte: bit 7 is the leftmost column (R88). -/
def spriteBit (row : Byte) (c : Nat) : Bool := row.getLsbD (7 - c)

/-- One sprite row at row `cy`, columns left to right (R87). -/
def drawRow (ox cy : Nat) (row : Byte) (acc : FrameBuffer × Bool) : FrameBuffer × Bool :=
  (List.range 8).foldl (fun acc c => if spriteBit row c then drawCell (ox + c) cy acc else acc) acc

/-- The sprite's rows from row `cy` down (R87). -/
def drawRows (ox cy : Nat) : List Byte → FrameBuffer × Bool → FrameBuffer × Bool
  | [], acc => acc
  | row :: rows, acc => drawRows ox (cy + 1) rows (drawRow ox cy row acc)

/-! ### Call stack (R33) -/

/-- `push(v)`. -/
def push (s : State) (w : Word) : Except Fault State :=
  if s.params.stackLimit = some s.stack.length then .error (.stackOverflow s.stack.length)
  else .ok (s.setStack (w :: s.stack))

/-- `pop()`: the top entry and the state without it. -/
def pop (s : State) : Except Fault (Word × State) :=
  match s.stack with
  | [] => .error .stackUnderflow
  | w :: rest => .ok (w, s.setStack rest)

/-! ### Timers (R142) and the Random port (R81, R148) -/

/-- A timer's decrement: never below 0 (R34, R142). -/
def countDown (b : Byte) : Byte := if b = 0 then 0 else b - 1

/-- `timer_decrement()` (R142). -/
def timerDecrement (s : State) : State := (s.setDT (countDown s.dt)).setST (countDown s.st)

/-- `rand8` of the coming step (R81): the draw the environment has supplied, or a free value (log 3). -/
def State.rand8 (s : State) : Byte :=
  match s.randIn with
  | b :: _ => b
  | [] => Config.freeRand8 s.draws

/-- The step's draw is used up, whatever the instruction; the next step has a fresh one (R81; log 3). -/
def State.nextDraw (s : State) : State := { s with randIn := s.randIn.tail, draws := s.draws + 1 }

/-! ### Taking a fault (R82, R137, R138) -/

/-- Fault entry: `s` is the state BEFORE the faulting step, to which every write of the step is undone; only `STATUS`
changes, to the record of the fault with the address of the instruction word and the word if it was fetched. There is no
return from it (R139). -/
def takeFault (s : State) (f : Fault) (word : Option Word) : State :=
  s.setStatus (.halted ⟨f, s.pc, word⟩)

end Sys2Proof.Machine
end

