-- ==== Sys2Proof/Machine/Flags.lean ====
section
/-! DEFINITION. The flag computations (43_arith_logic.md R106 to R113, 41_display.md R87) and the one way a flag is written:
into VF, as the instruction's last write (10_state.md R29). -/
namespace Sys2Proof.Machine

/-- VF's register number (R29). -/
def vf : Nibble := 15

/-- A flag as the byte VF holds. -/
def flagByte (c : Bool) : Byte := if c then 1 else 0

/-- `V[15] <- flag` (R29). -/
def State.setVF (s : State) (c : Bool) : State := s.setV vf (flagByte c)

/-- Carry of an 8-bit sum: the exact sum exceeds 255 (R106). -/
def carryOf (a b : Byte) : Bool := decide (255 < a.toNat + b.toNat)

/-- No borrow of `a - b`: `a >= b` (R107, R109). -/
def noBorrow (a b : Byte) : Bool := decide (b.toNat ≤ a.toNat)

/-- The bit a right shift by one drops (R108). -/
def shrOut (v : Byte) : Bool := v.getLsbD 0

/-- The bit a left shift by one drops: bit 7, tested directly (R110, C5). -/
def shlOut (v : Byte) : Bool := v.getLsbD 7

/-- Write a result and then its flag (R113): where the destination is VF, the flag stays. -/
def resultThenFlag (s : State) (x : Nibble) (result : Byte) (flag : Bool) : Out :=
  .next ((s.setV x result).setVF flag)

end Sys2Proof.Machine
end

