-- ==== Sys2Proof/Machine/Operands.lean ====
section
/-! DEFINITION. The operand forms and the results computed from them: immediates, skip and jump targets, index sums, glyph
addresses, decimal digits, block lengths, key operands (30_encoding.md R63, R64 and the instruction rules). -/
namespace Sys2Proof.Machine

/-- `zext_16(nnn)` (R63). -/
def immAddr (nnn : Addr12) : Word := nnn.zeroExtend 16

/-- `zext_16(b)` (R18). -/
def zextByte (b : Byte) : Word := b.zeroExtend 16

/-- The target of `JP V0, nnn`: `zext_16(nnn) + zext_16(V[0])` (R98). -/
def offsetTarget (nnn : Addr12) (v0 : Byte) : Word := immAddr nnn + zextByte v0

/-- Pass over the next word when the condition holds (R94 to R97, R122, R123); `PC` already holds its address (R75). -/
def skipIf (c : Bool) (s : State) : Out :=
  .next (if c then s.setPC (s.pc + 2) else s)

/-- `(I + zext_16(V[x])) mod 2^16` (R117). -/
def indexSum (i : Word) (b : Byte) : Word := i + zextByte b

/-- `(FONT_BASE + 5 * V[x]) mod 2^16`, not masked to a digit (R118). -/
def glyphAddr (p : Params) (b : Byte) : Word := p.fontBase + 5 * zextByte b

/-- The decimal digits of a byte, hundreds, tens, units (R119). -/
def bcdDigits (b : Byte) : List Byte :=
  [BitVec.ofNat 8 (b.toNat / 100), BitVec.ofNat 8 (b.toNat / 10 % 10), BitVec.ofNat 8 (b.toNat % 10)]

/-- The number of registers of the inclusive range `V[0..x]` (R120, R121). -/
def blockLen (x : Nibble) : Nat := x.toNat + 1

/-- The column of a sprite's origin (R87). -/
def originX (b : Byte) : Nat := b.toNat % 64

/-- The row of a sprite's origin (R87). -/
def originY (b : Byte) : Nat := b.toNat % 32

/-- Go on with `KEYS[k]` for a legal key value; a value above 15 raises KeyIndexOutOfRange (R122, R123, R128). -/
def withKey (s : State) (k : Byte) (cont : Bool → Out) : Out :=
  if h : k.toNat < 16 then cont (s.keys[k.toNat]'h) else .fault (.keyIndexOutOfRange k)

end Sys2Proof.Machine
end

