-- ==== Sys2Proof/Machine/Arith.lean ====
section
/-! DEFINITION. Arithmetic, logic and random (43_arith_logic.md). 8-bit unsigned results modulo 256 (R112); flags last
(R113). -/
namespace Sys2Proof.Machine

/-- `LD Vx, kk` (R100). -/
def execLdImm (x : Nibble) (kk : Byte) (s : State) : Out := .next (s.setV x kk)

/-- `ADD Vx, kk` (R101): no flag. -/
def execAddImm (x : Nibble) (kk : Byte) (s : State) : Out := .next (s.setV x (s.getV x + kk))

/-- `LD Vx, Vy` (R102). -/
def execLdReg (x y : Nibble) (s : State) : Out := .next (s.setV x (s.getV y))

/-- `OR Vx, Vy` (R103): VF is not reset. -/
def execOrReg (x y : Nibble) (s : State) : Out := .next (s.setV x (s.getV x ||| s.getV y))

/-- `AND Vx, Vy` (R104). -/
def execAndReg (x y : Nibble) (s : State) : Out := .next (s.setV x (s.getV x &&& s.getV y))

/-- `XOR Vx, Vy` (R105). -/
def execXorReg (x y : Nibble) (s : State) : Out := .next (s.setV x (s.getV x ^^^ s.getV y))

/-- `ADD Vx, Vy` (R106). -/
def execAddReg (x y : Nibble) (s : State) : Out :=
  resultThenFlag s x (s.getV x + s.getV y) (carryOf (s.getV x) (s.getV y))

/-- `SUB Vx, Vy` (R107): `V[x] - V[y]`. -/
def execSub (x y : Nibble) (s : State) : Out :=
  resultThenFlag s x (s.getV x - s.getV y) (noBorrow (s.getV x) (s.getV y))

/-- `SHR Vx` (R108): shifts `V[x]`; the `y` field is ignored (R70). -/
def execShr (x _y : Nibble) (s : State) : Out :=
  resultThenFlag s x (s.getV x >>> 1) (shrOut (s.getV x))

/-- `SUBN Vx, Vy` (R109): `V[y] - V[x]`. -/
def execSubn (x y : Nibble) (s : State) : Out :=
  resultThenFlag s x (s.getV y - s.getV x) (noBorrow (s.getV y) (s.getV x))

/-- `SHL Vx` (R110): shifts `V[x]`; the `y` field is ignored (R70). -/
def execShl (x _y : Nibble) (s : State) : Out :=
  resultThenFlag s x (s.getV x <<< 1) (shlOut (s.getV x))

/-- `RND Vx, kk` (R111): the step's draw, masked. -/
def execRnd (x : Nibble) (kk : Byte) (s : State) : Out := .next (s.setV x (s.rand8 &&& kk))

end Sys2Proof.Machine
end

