-- ==== Sys2Proof/Machine/ControlFlow.lean ====
section
/-! DEFINITION. Control transfer (42_control_flow.md): no target is checked here, a bad one faults at the next fetch
(R99). -/
namespace Sys2Proof.Machine

/-- `RET` (R91). -/
def execRet (s : State) : Out :=
  match pop s with
  | .error f => .fault f
  | .ok (w, t) => .next (t.setPC w)

/-- `JP nnn` (R92). -/
def execJp (nnn : Addr12) (s : State) : Out := .next (s.setPC (immAddr nnn))

/-- `CALL nnn` (R93): the pushed `PC` is the address of the word after the call. -/
def execCall (nnn : Addr12) (s : State) : Out :=
  match push s s.pc with
  | .error f => .fault f
  | .ok t => .next (t.setPC (immAddr nnn))

/-- `SE Vx, kk` (R94). -/
def execSeImm (x : Nibble) (kk : Byte) (s : State) : Out := skipIf (s.getV x == kk) s

/-- `SNE Vx, kk` (R95). -/
def execSneImm (x : Nibble) (kk : Byte) (s : State) : Out := skipIf (s.getV x != kk) s

/-- `SE Vx, Vy` (R96). -/
def execSeReg (x y : Nibble) (s : State) : Out := skipIf (s.getV x == s.getV y) s

/-- `SNE Vx, Vy` (R97). -/
def execSneReg (x y : Nibble) (s : State) : Out := skipIf (s.getV x != s.getV y) s

/-- `JP V0, nnn` (R98): the offset register is always `V[0]`. -/
def execJpV0 (nnn : Addr12) (s : State) : Out := .next (s.setPC (offsetTarget nnn (s.getV 0)))

end Sys2Proof.Machine
end

