-- ==== Sys2Proof/Machine/Display.lean ====
section
/-! DEFINITION. The display instructions (41_display.md). As in every family file, a meaning runs on the state after the
advance phase: `s.pc` is the address of the next word (40_step_sequencer.md R75; log 16). -/
namespace Sys2Proof.Machine

/-- `CLS` (R86). -/
def execCls (s : State) : Out := .next (s.setFB fbClear)

/-- `DRW Vx, Vy, n` (R87 to R90): operands read first, every sprite byte in range before any effect, VF written last. -/
def execDrw (x y n : Nibble) (s : State) : Out :=
  withRange s.i.toNat n.toNat
    (let d := drawRows (originX (s.getV x)) (originY (s.getV y)) (s.loadBytes s.i.toNat n.toNat) (s.fb, false)
     .next ((s.setFB d.1).setVF d.2))

end Sys2Proof.Machine
end

