-- ==== Sys2Proof/Machine/IndexMemory.lean ====
section
/-! DEFINITION. The address register and memory instructions (44_index_memory.md): memory is reached through `I`, every
address is checked first (20_memory.md R53), and `I` is unchanged by the three memory instructions (D14). -/
namespace Sys2Proof.Machine

/-- `LD I, nnn` (R116). -/
def execLdI (nnn : Addr12) (s : State) : Out := .next (s.setI (immAddr nnn))

/-- `ADD I, Vx` (R117): no flag, no mask to the memory size. -/
def execAddIVx (x : Nibble) (s : State) : Out := .next (s.setI (indexSum s.i (s.getV x)))

/-- `LD F, Vx` (R118). -/
def execLdFVx (x : Nibble) (s : State) : Out := .next (s.setI (glyphAddr s.params (s.getV x)))

/-- `LD B, Vx` (R119). -/
def execLdBVx (x : Nibble) (s : State) : Out :=
  withRange s.i.toNat 3 (.next (s.storeBytes s.i.toNat (bcdDigits (s.getV x))))

/-- `LD [I], Vx` (R120): the range `V[0..x]` is inclusive. -/
def execLdMemVx (x : Nibble) (s : State) : Out :=
  withRange s.i.toNat (blockLen x) (.next (s.storeBytes s.i.toNat (s.regsUpTo x)))

/-- `LD Vx, [I]` (R121): the range `V[0..x]` is inclusive. -/
def execLdVxMem (x : Nibble) (s : State) : Out :=
  withRange s.i.toNat (blockLen x) (.next (s.loadRegs 0 (s.loadBytes s.i.toNat (blockLen x))))

end Sys2Proof.Machine
end

