-- ==== Sys2Proof/Machine/TimersInput.lean ====
section
/-! DEFINITION. The timer and key instructions (45_timers_input.md). The countdown itself is the step's timer phase
(60_exceptions.md R142), after the meaning. -/
namespace Sys2Proof.Machine

/-- `SKP Vx` (R122). -/
def execSkp (x : Nibble) (s : State) : Out := withKey s (s.getV x) fun pressed => skipIf pressed s

/-- `SKNP Vx` (R123): a value that is no key faults here too. -/
def execSknp (x : Nibble) (s : State) : Out := withKey s (s.getV x) fun pressed => skipIf (!pressed) s

/-- `LD Vx, DT` (R124): the value before this step's timer phase. -/
def execLdVxDt (x : Nibble) (s : State) : Out := .next (s.setV x s.dt)

/-- `LD Vx, K` (R127): with no key latched, `PC` goes back to this instruction; the latch is read and not consumed. -/
def execLdVxK (x : Nibble) (s : State) : Out :=
  .next (if s.keyAny then s.setV x (s.keyLast.zeroExtend 8) else s.setPC (s.pc - 2))

/-- `LD DT, Vx` (R125). -/
def execLdDtVx (x : Nibble) (s : State) : Out := .next (s.setDT (s.getV x))

/-- `LD ST, Vx` (R126). -/
def execLdStVx (x : Nibble) (s : State) : Out := .next (s.setST (s.getV x))

end Sys2Proof.Machine
end

