-- ==== Sys2Proof/Machine/Sequencer.lean ====
section
/-! DEFINITION. The phases of one step of a running block (40_step_sequencer.md R74 to R82, R84): fetch, advance, decode and
classify, execute, timer phase, and the result the caller gets (R80). -/
namespace Sys2Proof.Machine

/-- Fetch phase (R74): `PC` even, then the two bytes at `PC` and `PC + 1`, big-endian. -/
def fetch (s : State) : Except Fault Word :=
  if s.pc.toNat % 2 = 0 then
    match memRead s s.pc.toNat with
    | .error f => .error f
    | .ok hi =>
      match memRead s (s.pc.toNat + 1) with
      | .error f => .error f
      | .ok lo => .ok (joinBytes hi lo)
  else .error (.pcMisaligned s.pc)

/-- Advance phase (R75). -/
def advance (s : State) : State := s.setPC (s.pc + 2)

/-- Timer phase (R79): the step decrements the timers with `PerStep` coupling, and not with `External`. -/
def timerPhase (s : State) : State :=
  match s.params.timerCoupling with
  | .perStep => timerDecrement s
  | .external => s

/-- What ends every step that did not fault: the timer phase (R79), and a fresh draw for the next step (R81). -/
def endStep (s : State) : State := (timerPhase s).nextDraw

/-- The result of a step that did not fault (R80), from the instruction and the state it executed in. -/
def resultOf (i : Instr) (s : State) : StepResult :=
  match i with
  | .ldVxK x => if s.keyAny then .continues else .waitingForKey x
  | .cls | .ret | .jp _ | .call _ | .seImm _ _ | .sneImm _ _ | .seReg _ _ | .ldImm _ _ | .addImm _ _ | .ldReg _ _
  | .orReg _ _ | .andReg _ _ | .xorReg _ _ | .addReg _ _ | .sub _ _ | .shr _ _ | .subn _ _ | .shl _ _ | .sneReg _ _
  | .ldI _ | .jpV0 _ | .rnd _ _ | .drw _ _ _ | .skp _ | .sknp _ | .ldVxDt _ | .ldDtVx _ | .ldStVx _ | .addIVx _
  | .ldFVx _ | .ldBVx _ | .ldMemVx _ | .ldVxMem _ => .continues

/-- A faulting step: the state of R82 and the result `Halted(f)`. -/
def haltStep (s : State) (f : Fault) (word : Option Word) : State × StepResult :=
  (takeFault s f word, .halted ⟨f, s.pc, word⟩)

/-- The step of a running block in one piece (R84): the state after it and its result. -/
def runStep (s : State) : Host.Outcome (State × StepResult) Fault Refusal :=
  match fetch s with
  | .error f => .next (haltStep s f none)
  | .ok w =>
    match decodeWord w with
    | none => .next (haltStep s (.decodeError w) (some w))
    | some i =>
      match exec i (advance s) with
      | .next t => .next (endStep t, resultOf i s)
      | .fault f => .next (haltStep s f (some w))
      | .refused r => .refused r

/-- What a call of the step returns to the host (R80, R149): on a halted block the same `Halted(f)` again (R83). -/
def stepResult (s : State) : Option StepResult :=
  match s.status with
  | .halted f => some (.halted f)
  | .running =>
    match runStep s with
    | .next r => some r.2
    | .fault _ => none
    | .refused _ => none

/-- A word stored in memory order at an address (R49); bytes outside memory are not stored (log 18). -/
def placeWord (s : State) (a : Nat) (w : Word) : State := s.storeBytes a (wordBytes w)

end Sys2Proof.Machine
end

