-- ==== Sys2Proof/Machine/Step.lean ====
section
/-! DEFINITION. The block's only transition (R9, R73), and the host's way of placing one instruction. -/
namespace Sys2Proof.Machine

/-- One step. A running block takes the step of R84, whose faults are taken as the halted next state of R82. On a halted
block no step exists (R83): the outcome is the terminal fault of its record (log 6). -/
def step (s : State) : Host.Outcome State Fault Refusal :=
  match s.status with
  | .halted f => .fault f.fault
  | .running =>
    match runStep s with
    | .next r => .next r.1
    | .fault f => .fault f
    | .refused r => .refused r

/-- The instruction whose bits are `w` (those from `nbits` up zero) stored where the next fetch reads (R49, R74). From reset
it stands for loading an image of that one word (R154; log 9). -/
def State.withFetchWord (s : State) (nbits w : Nat) : State :=
  placeWord s s.pc.toNat (BitVec.ofNat 16 (w % 2 ^ nbits))

end Sys2Proof.Machine
end

