-- ==== Sys2Proof/WellFormed.lean ====
section
/-! DEFINITION. The checks that make a construction legal: R13 and R14 on the parameters, R13 and R156 on the image. An
instruction needs none: the fields of `Instr` have their exact widths and the encoding admits every value of them (R63,
R64, R70), so each term of `Instr` is well-formed by its type. -/
namespace Sys2Proof

/-- R13: `LOAD_ADDR` is even. -/
def Params.loadAddrEven (p : Params) : Bool :=
  p.loadAddr.toNat % 2 == 0

/-- R14: `FONT_BASE + 80 <= 0x1000`. -/
def Params.fontInMemory (p : Params) : Bool :=
  decide (p.fontBase.toNat + 80 ≤ 0x1000)

/-- The parameters a model may be given (R13, R14). -/
def Params.wf (p : Params) : Bool :=
  p.loadAddrEven && p.fontInMemory

/-- R156: the image is no longer than the space from `LOAD_ADDR` to the end of memory. Where `LOAD_ADDR` is at or above
0x1000 the spec does not say what that space is; here it is 0, so only the empty image fits (log 19, DESIGN CHOICE). -/
def Params.imageFits (p : Params) (image : List Byte) : Bool :=
  decide (image.length ≤ 0x1000 - p.loadAddr.toNat)

/-- R13's condition on `LOAD_ADDR` and the image's length, with R156: the image and the font table do not overlap. R13 as
written also refuses the empty image at a `LOAD_ADDR` strictly inside the font (log 10, DEDUCED). -/
def Params.imageClearOfFont (p : Params) (image : List Byte) : Bool :=
  decide (p.fontBase.toNat + 80 ≤ p.loadAddr.toNat ∨ p.loadAddr.toNat + image.length ≤ p.fontBase.toNat)

/-- The image can be loaded (R156); otherwise it is a load failure (R155). -/
def Params.imageWf (p : Params) (image : List Byte) : Bool :=
  p.imageFits image && p.imageClearOfFont image

end Sys2Proof
end

