-- ==== Sys2Proof/Machine/Ports.lean ====
section
/-! DEFINITION. What the host does to the block outside a step: construction with an image (70_reset_and_hazards.md R151 to
R156), and the ports of 60_exceptions.md R143 to R149. The host acts only between two steps (R85), so these are functions on
State beside `step` (log 12). -/
namespace Sys2Proof.Machine

/-- Construction (R151): every register at its reset value, the font in place, the image copied to `LOAD_ADDR` (R154), `PC`
at `LOAD_ADDR`. `none` where the parameters break R13 or R14 (log 10) or the image is a load failure (R155, R156; log 19): a failed
load gives no block. -/
def construct (p : Params) (image : List Byte) : Option State :=
  if p.wf && p.imageWf image then
    some (State.storeBytes { State.reset with params := p, pc := p.loadAddr } p.loadAddr.toNat image)
  else none

/-- Input port (R146): any values into the key latch. -/
def setKeyLatch (s : State) (keys : Vector Bool 16) (keyAny : Bool) (keyLast : Nibble) : State :=
  { s with keys := keys, keyAny := keyAny, keyLast := keyLast }

/-- TimerTick port (R143): it exists only with `External` coupling and acts on a running block (log 13). -/
def timerTick (s : State) : Option State :=
  match s.params.timerCoupling, s.status with
  | .external, .running => some (timerDecrement s)
  | _, _ => none

/-- Display port (R145): read only. -/
def displayCell (s : State) (cx cy : Nat) : Bool := fbCell s.fb cx cy

/-- Audio port (R147): read only. -/
def audioST (s : State) : Byte := s.st

/-- Status port (R149): read only; the step's result is `stepResult`. -/
def statusPort (s : State) : RunStatus := s.status

/-- Random port (R148): the environment supplies a draw for a coming step (log 3). -/
def supplyDraw (s : State) (b : Byte) : State := { s with randIn := s.randIn ++ [b] }

end Sys2Proof.Machine
end

