-- ==== Sys2Proof/Safety.lean ====
section
/-! DEFINITION. The terms claims are stated in: the invariant of the block, a safe step, and the frames (what a step leaves
unchanged, memory through the model's read of one byte). -/
namespace Sys2Proof.Machine

/-- A return address a `CALL` fetched from memory can have pushed: the even address after an instruction word (R74, R75,
R93). -/
abbrev ReturnAddress (w : Word) : Prop := w.toNat % 2 = 0 ∧ 2 ≤ w.toNat ∧ w.toNat ≤ 0x1000

/-- What every step keeps. -/
structure State.Inv (s : State) : Prop where
  /-- R13, R14. -/
  params : s.params.wf = true
  /-- Memory is in its canonical form, all of it inside the address space (R11, R39). -/
  mem : Memory.wf s.params s.mem = true
  /-- R15, R33: the stack is never deeper than `STACK_LIMIT`. -/
  depth : ∀ l, s.params.stackLimit = some l → s.stack.length ≤ l
  /-- R33, R93: every saved program counter is an even address after an instruction word. -/
  saved : ∀ w ∈ s.stack, ReturnAddress w
  /-- R138: a halted block's `PC` is still the address its record names. -/
  record : ∀ f, s.status = .halted f → f.pc = s.pc

/-- A step that ends running: no fault is taken in it. -/
def SafeStep (s : State) : Prop := ∃ t, step s = .next t ∧ t.status = .running

/-- The word the step fetches is `w`: `PC` is even, both bytes are in memory, and they read as `w` (R74). -/
def Fetches (s : State) (w : Word) : Prop :=
  s.pc.toNat % 2 = 0 ∧ s.pc.toNat + 1 < 0x1000 ∧
    w = (s.byteAt s.pc.toNat).zeroExtend 16 <<< 8 ||| (s.byteAt (s.pc.toNat + 1)).zeroExtend 16

/-- The step of a running block whose fetched word is the instruction `i`. -/
def RunsInstr (s : State) (i : Instr) : Prop :=
  s.status = .running ∧ ∃ w, Fetches s w ∧ decodeWord w = some i

/-- Every word of one row of the opcode map (R66) decodes to the instruction built from its fields (R62). -/
def EncodedAs (mask value : Word) (build : Fields → Instr) : Prop :=
  ∀ w : Word, w &&& mask = value → decodeWord w = some (build (split w))

/-- What an instruction may change; what is not named keeps its value. Nothing of it lets an instruction change the key
latch (R36, R37), `STATUS` (R40), the parameters or the Random port. -/
structure Changes where
  /-- The general registers. -/
  v : Nibble → Prop := fun _ => False
  i : Prop := False
  pc : Prop := False
  stack : Prop := False
  dt : Prop := False
  st : Prop := False
  fb : Prop := False
  /-- The addresses of the memory bytes. -/
  mem : Nat → Prop := fun _ => False

/-- Nothing but what `c` names differs between `s` and `t`; memory is read byte by byte, the framebuffer cell by cell. -/
structure Frame (c : Changes) (s t : State) : Prop where
  v : ∀ r, ¬ c.v r → t.getV r = s.getV r
  i : ¬ c.i → t.i = s.i
  pc : ¬ c.pc → t.pc = s.pc
  stack : ¬ c.stack → t.stack = s.stack
  dt : ¬ c.dt → t.dt = s.dt
  st : ¬ c.st → t.st = s.st
  fb : ¬ c.fb → ∀ cx cy, fbCell t.fb cx cy = fbCell s.fb cx cy
  mem : ∀ a, ¬ c.mem a → t.byteAt a = s.byteAt a
  keys : t.keys = s.keys
  keyAny : t.keyAny = s.keyAny
  keyLast : t.keyLast = s.keyLast
  status : t.status = s.status
  params : t.params = s.params
  randIn : t.randIn = s.randIn
  draws : t.draws = s.draws

/-- `a` is the lowest address at or above 0x1000 among `base .. base + len - 1` (R53). -/
def LowestOutOfRange (base len a : Nat) : Prop :=
  base ≤ a ∧ a < base + len ∧ 0x1000 ≤ a ∧ ∀ b, base ≤ b → b < a → b < 0x1000

/-- The sprite `DRW Vx, Vy, n` draws in state `s` has a set bit for column `cx`, row `cy` (R87, R88): its origin is
`(V[x] mod 64, V[y] mod 32)`, row `r` is the byte at `I + r`, and bit 7 is the leftmost column. -/
def SpriteSets (s : State) (x y n : Nibble) (cx cy : Nat) : Prop :=
  (s.getV x).toNat % 64 ≤ cx ∧ cx < (s.getV x).toNat % 64 + 8 ∧
    (s.getV y).toNat % 32 ≤ cy ∧ cy < (s.getV y).toNat % 32 + n.toNat ∧
    (s.byteAt (s.i.toNat + (cy - (s.getV y).toNat % 32))).getLsbD (7 - (cx - (s.getV x).toNat % 64)) = true

/-- The arithmetic, logic and random instructions (R100 to R111). -/
def IsArith : Instr → Prop
  | .ldImm _ _ | .addImm _ _ | .ldReg _ _ | .orReg _ _ | .andReg _ _ | .xorReg _ _ | .addReg _ _ | .sub _ _
  | .shr _ _ | .subn _ _ | .shl _ _ | .rnd _ _ => True
  | .cls | .ret | .jp _ | .call _ | .seImm _ _ | .sneImm _ _ | .seReg _ _ | .sneReg _ _ | .ldI _ | .jpV0 _
  | .drw _ _ _ | .skp _ | .sknp _ | .ldVxDt _ | .ldVxK _ | .ldDtVx _ | .ldStVx _ | .addIVx _ | .ldFVx _ | .ldBVx _
  | .ldMemVx _ | .ldVxMem _ => False

/-- The skip instructions (R94 to R97, R122, R123). -/
def IsSkip : Instr → Prop
  | .seImm _ _ | .sneImm _ _ | .seReg _ _ | .sneReg _ _ | .skp _ | .sknp _ => True
  | .cls | .ret | .jp _ | .call _ | .ldImm _ _ | .addImm _ _ | .ldReg _ _ | .orReg _ _ | .andReg _ _ | .xorReg _ _
  | .addReg _ _ | .sub _ _ | .shr _ _ | .subn _ _ | .shl _ _ | .ldI _ | .jpV0 _ | .rnd _ _ | .drw _ _ _
  | .ldVxDt _ | .ldVxK _ | .ldDtVx _ | .ldStVx _ | .addIVx _ | .ldFVx _ | .ldBVx _ | .ldMemVx _ | .ldVxMem _ => False

/-- Execute instructions one after another, each on the state the one before it left. -/
def execAll : List Instr → State → Out
  | [], s => .next s
  | i :: rest, s =>
    match exec i s with
    | .next t => execAll rest t
    | .fault f => .fault f
    | .refused r => .refused r

end Sys2Proof.Machine
end

