-- ==== Sys2Proof/Certificates/Slice0/Obligations.lean ====
section
/-! DEFINITION. The statements for the provers, one `def Obligations.<Name> : Prop` each, with the rule of spec/ it
formalises. `exec` runs on the state after the advance phase, so there `s.pc` is the address of the next word (R75; log 16);
`step` runs on the state at the step boundary. `Frame c s t` says that nothing but what `c` names is changed. -/
open Sys2Proof Sys2Proof.Machine

/-! ### Reset and construction -/

/-- R151, R153 for every construction that yields a block: registers, flags, `FB`, `STATUS`, `PC` at `LOAD_ADDR`; and the
font, the image, and 0 everywhere else in the address space. -/
def Obligations.ConstructionSetsEveryPiece : Prop :=
  ∀ (p : Params) (image : List Byte) (s : State), construct p image = some s →
    (∀ r, s.getV r = 0) ∧ s.i = 0 ∧ s.stack = [] ∧ s.dt = 0 ∧ s.st = 0 ∧ (∀ k (h : k < 16), s.keys[k] = false) ∧
    s.keyAny = false ∧ s.keyLast = 0 ∧ (∀ cx cy, fbCell s.fb cx cy = false) ∧ s.status = .running ∧
    s.pc = p.loadAddr ∧ s.params = p ∧
    (∀ k (h : k < 80), s.byteAt (p.fontBase.toNat + k) = p.fontData[k]) ∧
    (∀ j (h : j < image.length), s.byteAt (p.loadAddr.toNat + j) = image[j]) ∧
    ∀ a, a < 0x1000 → ¬ (p.fontBase.toNat ≤ a ∧ a < p.fontBase.toNat + 80) →
      ¬ (p.loadAddr.toNat ≤ a ∧ a < p.loadAddr.toNat + image.length) → s.byteAt a = 0

/-- R155 with the causes of R156 and R13: for an even `LOAD_ADDR` and a font inside memory, construction yields no state
exactly when the image is longer than the space from `LOAD_ADDR` up or breaks R13's condition on it and the font. The model's
choices in it: an empty image at a `LOAD_ADDR` strictly inside the font overlaps nothing and yields no state by R13 alone
(log 10, DEDUCED); at a `LOAD_ADDR` at or above 0x1000 the space is 0 (log 19, DESIGN CHOICE). -/
def Obligations.LoadFailsExactlyWhen : Prop :=
  ∀ (p : Params) (image : List Byte), p.loadAddr.toNat % 2 = 0 → p.fontBase.toNat + 80 ≤ 0x1000 →
    (construct p image = none ↔
      0x1000 - p.loadAddr.toNat < image.length ∨
      (p.loadAddr.toNat < p.fontBase.toNat + 80 ∧ p.fontBase.toNat < p.loadAddr.toNat + image.length))

/-- The reset state under the default parameters (log 2, PRESUMED by the spec): `PC = 0x200`, and memory reads as the font
table below 80 and 0 above. -/
def Obligations.ResetHasDefaults : Prop :=
  State.reset.pc.toNat = 0x200 ∧ State.reset.status = .running ∧ State.reset.stack = [] ∧
    (∀ r, State.reset.getV r = 0) ∧
    (∀ k (h : k < 80), State.reset.byteAt k = standardFont[k]) ∧ ∀ a, 80 ≤ a → State.reset.byteAt a = 0

/-! ### Encoding -/

/-- R62: the six fields, as numbers. -/
def Obligations.SplitterFields : Prop :=
  ∀ w : Word, (split w).family.toNat = w.toNat / 0x1000 ∧ (split w).x.toNat = w.toNat / 0x100 % 0x10 ∧
    (split w).y.toNat = w.toNat / 0x10 % 0x10 ∧ (split w).n.toNat = w.toNat % 0x10 ∧
    (split w).kk.toNat = w.toNat % 0x100 ∧ (split w).nnn.toNat = w.toNat % 0x1000

/-- R65, R66, R67: a word decodes to an instruction of a row exactly when it matches the row's mask and value, and to none
exactly when it matches no row; no two rows share a word. -/
def Obligations.DecoderFollowsOpcodeMap : Prop :=
  (∀ w : Word, ∀ r ∈ opcodeMap, r.Matches w ↔ (decodeWord w).map Instr.mnemonic = some r.mnemonic) ∧
  (∀ w : Word, decodeWord w = none ↔ ∀ r ∈ opcodeMap, ¬ r.Matches w) ∧
  ∀ w : Word, ∀ r ∈ opcodeMap, ∀ q ∈ opcodeMap, r.Matches w → q.Matches w → r = q

/-- Decoding the encoding of any instruction gives it back, over words and over the bytes of memory. -/
def Obligations.DecodeOfEncode : Prop :=
  ∀ (i : Instr) (rest : List Byte), decodeWord (encode i) = some i ∧ decode (encodeBytes i ++ rest) = .ok (i, rest)

/-- The other direction: a word that decodes to an instruction is that instruction's encoding, so no bit of it is dropped. -/
def Obligations.EncodeOfDecode : Prop :=
  ∀ (w : Word) (i : Instr), decodeWord w = some i → encode i = w

/-- A few words written out from R66. -/
def Obligations.SampleWordsDecode : Prop :=
  decodeWord 0x00E0 = some .cls ∧ decodeWord 0x1ABC = some (.jp 0xABC) ∧ decodeWord 0x6005 = some (.ldImm 0 5) ∧
    decodeWord 0x8AB6 = some (.shr 0xA 0xB) ∧ decodeWord 0xA2F0 = some (.ldI 0x2F0) ∧
    decodeWord 0xD12F = some (.drw 1 2 15) ∧ decodeWord 0xE19E = some (.skp 1) ∧ decodeWord 0xF533 = some (.ldBVx 5) ∧
    decodeWord 0x01E0 = none ∧ decodeWord 0x5121 = none ∧ decodeWord 0x8008 = none ∧ decodeWord 0xF075 = none

/-! ### The step -/

/-- A step runs the decoded instruction: what `step` adds to `exec` is the advance phase before it (R75), the timer phase
after it (R79) with the next draw (R81, in the form of log 3, the model's choice), and the halted state where it faults
(R82). -/
def Obligations.StepRunsDecodedInstruction : Prop :=
  ∀ (s : State) (w : Word) (i : Instr), s.status = .running → Fetches s w → decodeWord w = some i →
    step s = match exec i (s.setPC (s.pc + 2)) with
      | .next t => .next (timerPhase t).nextDraw
      | .fault f => .next (s.setStatus (.halted ⟨f, s.pc, some w⟩))
      | .refused r => .refused r

/-- R83: on a halted block no step exists; the caller gets `Halted(f)` back. -/
def Obligations.HaltedBlockTakesNoStep : Prop :=
  ∀ (s : State) (f : FaultRecord), s.status = .halted f →
    (∀ t, step s ≠ .next t) ∧ step s = .fault f.fault ∧ stepResult s = some (.halted f)

/-- R74, R135, R136: an odd `PC` raises PcMisaligned before anything is read, an even one at or above 0x1000 raises
MemoryOutOfRange there; no word is recorded (R82). -/
def Obligations.BadFetchHalts : Prop :=
  ∀ s : State, s.status = .running →
    (s.pc.toNat % 2 = 1 → step s = .next (s.setStatus (.halted ⟨.pcMisaligned s.pc, s.pc, none⟩))) ∧
    (s.pc.toNat % 2 = 0 → 0x1000 ≤ s.pc.toNat →
      step s = .next (s.setStatus (.halted ⟨.memoryOutOfRange s.pc.toNat, s.pc, none⟩))) ∧
    (s.pc.toNat % 2 = 0 → s.pc.toNat < 0x1000 → ∃ w, Fetches s w ∧ fetch s = .ok w)

/-- R67, R77, R130: a fetched word that matches no row halts the block with that word. -/
def Obligations.UnknownWordHalts : Prop :=
  ∀ (s : State) (w : Word), s.status = .running → Fetches s w → (∀ r ∈ opcodeMap, ¬ r.Matches w) →
    step s = .next (s.setStatus (.halted ⟨.decodeError w, s.pc, some w⟩)) ∧
      stepResult s = some (.halted ⟨.decodeError w, s.pc, some w⟩)

/-- R82, R138: faults are precise. After a faulting step nothing but `STATUS` differs, the record's `pc` is the address of
the instruction word, and the word is there exactly when the fetch completed. -/
def Obligations.FaultsArePrecise : Prop :=
  ∀ (s t : State), s.status = .running → step s = .next t → t.status ≠ .running →
    ∃ f : FaultRecord, t = s.setStatus (.halted f) ∧ f.pc = s.pc ∧ stepResult s = some (.halted f) ∧
      (∀ w, f.word = some w ↔ Fetches s w)

/-- R73, R141: a running block always takes a step, whatever it holds: every word has its effect or halts the block. -/
def Obligations.RunningBlockAlwaysSteps : Prop :=
  ∀ s : State, s.status = .running → ∃ t, step s = .next t

/-- R129, R136: a running block halts exactly when `PC` is odd, or outside memory, or the word is no instruction, or the
instruction raises its own fault: an empty stack for RET, a full one for CALL, an address out of range for the four memory
instructions, a value above 15 for the two key skips. -/
def Obligations.BlockHaltsExactlyWhen : Prop :=
  ∀ s : State, s.status = .running →
    (¬ SafeStep s ↔
      s.pc.toNat % 2 = 1 ∨ 0x1000 ≤ s.pc.toNat ∨ (∃ w, Fetches s w ∧ decodeWord w = none) ∨
      (RunsInstr s .ret ∧ s.stack = []) ∨
      (∃ nnn, RunsInstr s (.call nnn) ∧ s.params.stackLimit = some s.stack.length) ∨
      (∃ x y n, RunsInstr s (.drw x y n) ∧ n ≠ 0 ∧ 0x1000 < s.i.toNat + n.toNat) ∨
      (∃ x, RunsInstr s (.ldBVx x) ∧ 0x1000 < s.i.toNat + 3) ∨
      (∃ x, (RunsInstr s (.ldMemVx x) ∨ RunsInstr s (.ldVxMem x)) ∧ 0x1000 ≤ s.i.toNat + x.toNat) ∨
      ∃ x, (RunsInstr s (.skp x) ∨ RunsInstr s (.sknp x)) ∧ 15 < (s.getV x).toNat)

/-- Every step keeps the invariant, from every state that has it, reached or not. -/
def Obligations.StepKeepsInvariant : Prop :=
  ∀ s t : State, s.Inv → step s = .next t → t.Inv

/-- The reset state, and every legally constructed state, has the invariant. -/
def Obligations.ConstructedStatesHaveInvariant : Prop :=
  State.reset.Inv ∧ ∀ (p : Params) (image : List Byte) (s : State), construct p image = some s → s.Inv

/-- R36, R37, R146: the block never writes the key latch; and no step changes the parameters (R41). -/
def Obligations.StepNeverWritesKeyLatch : Prop :=
  ∀ s t : State, step s = .next t →
    t.keys = s.keys ∧ t.keyAny = s.keyAny ∧ t.keyLast = s.keyLast ∧ t.params = s.params

/-- R39, R47, C11: only `Fx33` and `Fx55` write memory. -/
def Obligations.OnlyStoresWriteMemory : Prop :=
  ∀ s t : State, step s = .next t →
    (∀ x, ¬ RunsInstr s (.ldBVx x)) → (∀ x, ¬ RunsInstr s (.ldMemVx x)) → ∀ a, t.byteAt a = s.byteAt a

/-- R38: only the clear-screen and draw instructions mutate the framebuffer. -/
def Obligations.OnlyDisplayWritesFramebuffer : Prop :=
  ∀ s t : State, step s = .next t → ¬ RunsInstr s .cls → (∀ x y n, ¬ RunsInstr s (.drw x y n)) → t.fb = s.fb

/-- R33: the stack is pushed by a call, popped by a return, and written by nothing else. -/
def Obligations.OnlyCallAndReturnTouchStack : Prop :=
  ∀ s t : State, step s = .next t →
    t.stack = s.stack ∨ (∃ nnn, RunsInstr s (.call nnn) ∧ t.stack = (s.pc + 2) :: s.stack) ∨
      (RunsInstr s .ret ∧ s.stack = t.pc :: t.stack)

/-- R30: `I` is written by `Annn`, `Fx1E` and `Fx29` only. -/
def Obligations.OnlyIndexInstructionsWriteI : Prop :=
  ∀ s t : State, step s = .next t →
    (∀ nnn, ¬ RunsInstr s (.ldI nnn)) → (∀ x, ¬ RunsInstr s (.addIVx x)) → (∀ x, ¬ RunsInstr s (.ldFVx x)) → t.i = s.i

/-- R29: no instruction but `8xy4` to `8xy7`, `8xyE` and `Dxyn` writes VF, unless VF is its destination. -/
def Obligations.OnlySixInstructionsWriteVF : Prop :=
  ∀ (s t : State) (i : Instr), RunsInstr s i → step s = .next t → t.getV 15 ≠ s.getV 15 →
    (∃ x y, i = .addReg x y ∨ i = .sub x y ∨ i = .shr x y ∨ i = .subn x y ∨ i = .shl x y) ∨ (∃ x y n, i = .drw x y n) ∨
    (∃ kk, i = .ldImm 15 kk ∨ i = .addImm 15 kk ∨ i = .rnd 15 kk) ∨
    (∃ y, i = .ldReg 15 y ∨ i = .orReg 15 y ∨ i = .andReg 15 y ∨ i = .xorReg 15 y) ∨
    i = .ldVxDt 15 ∨ i = .ldVxK 15 ∨ i = .ldVxMem 15

/-! ### Timers -/

/-- R142: each timer counts down by 1 while it is nonzero and stays at 0, nothing else is changed, and this is the timer
phase with `PerStep` coupling and the TimerTick of a running block with `External`. -/
def Obligations.TimerDecrementCountsBothDown : Prop :=
  ∀ s : State, (timerDecrement s).dt.toNat = s.dt.toNat - 1 ∧ (timerDecrement s).st.toNat = s.st.toNat - 1 ∧
    Frame { dt := True, st := True } s (timerDecrement s) ∧
    (s.params.timerCoupling = .perStep → timerPhase s = timerDecrement s) ∧
    (s.params.timerCoupling = .external → s.status = .running → timerTick s = some (timerDecrement s))

/-- R79: after every step that did not fault, a waiting Fx0A and a timer write included, the timers the instruction left
count down exactly when the coupling is `PerStep`; what it left is what was there, but for `Fx15` and `Fx18`. -/
def Obligations.TimersCountEveryStep : Prop :=
  ∀ (s t : State) (i : Instr), RunsInstr s i → step s = .next t → t.status = .running →
    ∃ u, exec i (s.setPC (s.pc + 2)) = .next u ∧
      ((∀ x, i ≠ .ldDtVx x) → u.dt = s.dt) ∧ ((∀ x, i ≠ .ldStVx x) → u.st = s.st) ∧
      (s.params.timerCoupling = .perStep → t.dt.toNat = u.dt.toNat - 1 ∧ t.st.toNat = u.st.toNat - 1) ∧
      (s.params.timerCoupling = .external → t.dt = u.dt ∧ t.st = u.st)

/-- R143: the TimerTick port exists only with `External` coupling, acts on a running block, and is one timer decrement; the
step's timer phase does nothing then. -/
def Obligations.TimerTickPort : Prop :=
  ∀ s : State, (s.params.timerCoupling = .perStep → timerTick s = none) ∧
    (s.params.timerCoupling = .external → timerPhase s = s ∧ (s.status = .running →
      ∃ t, timerTick s = some t ∧ t.dt.toNat = s.dt.toNat - 1 ∧ t.st.toNat = s.st.toNat - 1 ∧
        Frame { dt := True, st := True } s t))

/-- R160 and the derived corner cases of R124, R125, R126: a timer written in a step is counted down once by the same step
with `PerStep` coupling; a read sees the value before that. -/
def Obligations.WrittenTimerIsCountedInSameStep : Prop :=
  ∀ (s : State) (x : Nibble),
    (RunsInstr s (.ldDtVx x) → ∃ t, step s = .next t ∧ t.status = .running ∧
      (s.params.timerCoupling = .perStep → t.dt.toNat = (s.getV x).toNat - 1) ∧
      (s.params.timerCoupling = .external → t.dt = s.getV x)) ∧
    (RunsInstr s (.ldStVx x) → ∃ t, step s = .next t ∧ t.status = .running ∧
      (s.params.timerCoupling = .perStep → t.st.toNat = (s.getV x).toNat - 1) ∧
      (s.params.timerCoupling = .external → t.st = s.getV x)) ∧
    (RunsInstr s (.ldVxDt x) → ∃ t, step s = .next t ∧ t.getV x = s.dt ∧
      (s.params.timerCoupling = .perStep → t.dt.toNat = s.dt.toNat - 1))

/-! ### Display -/

/-- R86. -/
def Obligations.ClsClearsEveryCell : Prop :=
  EncodedAs 0xFFFF 0x00E0 (fun _ => .cls) ∧
  ∀ s : State, ∃ t, exec .cls s = .next t ∧ (∀ cx cy, fbCell t.fb cx cy = false) ∧ Frame { fb := True } s t

/-- R87 to R90: every on-screen cell under a set sprite bit is flipped and no other, VF is 1 exactly when one of them was
set, clipped cells neither change nor count; a sprite byte out of range stops the draw before anything is drawn. -/
def Obligations.DrwXorsSpriteAndSetsVF : Prop :=
  EncodedAs 0xF000 0xD000 (fun d => .drw d.x d.y d.n) ∧
  ∀ (x y n : Nibble) (s : State),
    (n = 0 ∨ s.i.toNat + n.toNat ≤ 0x1000 → ∃ t, exec (.drw x y n) s = .next t ∧
      (∀ cx cy, cx < 64 → cy < 32 →
        (fbCell t.fb cx cy = true ↔ (fbCell s.fb cx cy = true ↔ ¬ SpriteSets s x y n cx cy))) ∧
      ((∃ cx cy, cx < 64 ∧ cy < 32 ∧ SpriteSets s x y n cx cy ∧ fbCell s.fb cx cy = true) → t.getV 15 = 1) ∧
      ((∀ cx cy, cx < 64 → cy < 32 → SpriteSets s x y n cx cy → fbCell s.fb cx cy = false) → t.getV 15 = 0) ∧
      Frame { fb := True, v := (· = 15) } s t) ∧
    (n ≠ 0 → 0x1000 < s.i.toNat + n.toNat →
      ∃ a, LowestOutOfRange s.i.toNat n.toNat a ∧ exec (.drw x y n) s = .fault (.memoryOutOfRange a))

/-- The corrected property of C3: two identical draws restore the framebuffer, and the second VF is 1 exactly when the sprite
has an on-screen set bit over a cell that was 0 before the first. -/
def Obligations.DrawTwiceRestoresFramebuffer : Prop :=
  ∀ (x y n : Nibble) (s t u : State), x ≠ 15 → y ≠ 15 → exec (.drw x y n) s = .next t → exec (.drw x y n) t = .next u →
    u.fb = s.fb ∧
      (u.getV 15 = 1 ↔ ∃ cx cy, cx < 64 ∧ cy < 32 ∧ SpriteSets s x y n cx cy ∧ fbCell s.fb cx cy = false)

/-! ### Control flow -/

/-- R91, R131. -/
def Obligations.RetPopsSavedPC : Prop :=
  EncodedAs 0xFFFF 0x00EE (fun _ => .ret) ∧
  (∀ (s : State) (w : Word) (rest : List Word), s.stack = w :: rest →
    ∃ t, exec .ret s = .next t ∧ t.pc = w ∧ t.stack = rest ∧ Frame { pc := True, stack := True } s t) ∧
  ∀ s : State, RunsInstr s .ret → s.stack = [] →
    step s = .next (s.setStatus (.halted ⟨.stackUnderflow, s.pc, some 0x00EE⟩))

/-- R92. -/
def Obligations.JpSetsPC : Prop :=
  EncodedAs 0xF000 0x1000 (fun d => .jp d.nnn) ∧
  ∀ (nnn : Addr12) (s : State), ∃ t, exec (.jp nnn) s = .next t ∧ t.pc.toNat = nnn.toNat ∧ Frame { pc := True } s t

/-- R93, R133: the call pushes the address of the word after it, unless `STACK_LIMIT` entries are already there. -/
def Obligations.CallPushesReturnAddress : Prop :=
  EncodedAs 0xF000 0x2000 (fun d => .call d.nnn) ∧
  ∀ (nnn : Addr12) (s : State),
    (s.params.stackLimit ≠ some s.stack.length → ∃ t, exec (.call nnn) s = .next t ∧ t.stack = s.pc :: s.stack ∧
      t.pc.toNat = nnn.toNat ∧ Frame { pc := True, stack := True } s t) ∧
    ∀ l, s.params.stackLimit = some l → s.stack.length = l → exec (.call nnn) s = .fault (.stackOverflow l)

/-- R91 and R93 together: a call and the return it leads to end at the word after the call, the stack as before. -/
def Obligations.CallThenReturn : Prop :=
  ∀ (s t : State) (nnn : Addr12), RunsInstr s (.call nnn) → step s = .next t → t.status = .running → RunsInstr t .ret →
    ∃ u, step t = .next u ∧ u.status = .running ∧ u.pc = s.pc + 2 ∧ u.stack = s.stack ∧ (∀ r, u.getV r = s.getV r)

/-- R94, R95: the skip passes over exactly one word. -/
def Obligations.ImmediateSkips : Prop :=
  EncodedAs 0xF000 0x3000 (fun d => .seImm d.x d.kk) ∧ EncodedAs 0xF000 0x4000 (fun d => .sneImm d.x d.kk) ∧
  ∀ (x : Nibble) (kk : Byte) (s : State),
    (∃ t, exec (.seImm x kk) s = .next t ∧ t.pc = (if s.getV x = kk then s.pc + 2 else s.pc) ∧
      Frame { pc := True } s t) ∧
    ∃ t, exec (.sneImm x kk) s = .next t ∧ t.pc = (if s.getV x = kk then s.pc else s.pc + 2) ∧ Frame { pc := True } s t

/-- R96, R97, with the words of both families whose `n` is not 0. -/
def Obligations.RegisterSkips : Prop :=
  EncodedAs 0xF00F 0x5000 (fun d => .seReg d.x d.y) ∧ EncodedAs 0xF00F 0x9000 (fun d => .sneReg d.x d.y) ∧
  (∀ w : Word, (w.toNat / 0x1000 = 5 ∨ w.toNat / 0x1000 = 9) → w.toNat % 0x10 ≠ 0 → decodeWord w = none) ∧
  ∀ (x y : Nibble) (s : State),
    (∃ t, exec (.seReg x y) s = .next t ∧ t.pc = (if s.getV x = s.getV y then s.pc + 2 else s.pc) ∧
      Frame { pc := True } s t) ∧
    ∃ t, exec (.sneReg x y) s = .next t ∧ t.pc = (if s.getV x = s.getV y then s.pc else s.pc + 2) ∧
      Frame { pc := True } s t

/-- R98: the sum does not wrap. -/
def Obligations.JpV0AddsV0 : Prop :=
  EncodedAs 0xF000 0xB000 (fun d => .jpV0 d.nnn) ∧
  ∀ (nnn : Addr12) (s : State), ∃ t, exec (.jpV0 nnn) s = .next t ∧ t.pc.toNat = nnn.toNat + (s.getV 0).toNat ∧
    Frame { pc := True } s t

/-! ### Arithmetic, logic, random -/

/-- R100, R102. -/
def Obligations.RegisterLoads : Prop :=
  EncodedAs 0xF000 0x6000 (fun d => .ldImm d.x d.kk) ∧ EncodedAs 0xF00F 0x8000 (fun d => .ldReg d.x d.y) ∧
  ∀ (x y : Nibble) (kk : Byte) (s : State),
    (∃ t, exec (.ldImm x kk) s = .next t ∧ t.getV x = kk ∧ Frame { v := (· = x) } s t) ∧
    ∃ t, exec (.ldReg x y) s = .next t ∧ t.getV x = s.getV y ∧ Frame { v := (· = x) } s t

/-- R101: no flag; the frame leaves VF alone unless it is the destination. -/
def Obligations.AddImmediateWraps : Prop :=
  EncodedAs 0xF000 0x7000 (fun d => .addImm d.x d.kk) ∧
  ∀ (x : Nibble) (kk : Byte) (s : State), ∃ t, exec (.addImm x kk) s = .next t ∧
    (t.getV x).toNat = ((s.getV x).toNat + kk.toNat) % 256 ∧ Frame { v := (· = x) } s t

/-- R103, R104, R105, bit by bit; VF is not reset. -/
def Obligations.LogicIsBitwise : Prop :=
  EncodedAs 0xF00F 0x8001 (fun d => .orReg d.x d.y) ∧ EncodedAs 0xF00F 0x8002 (fun d => .andReg d.x d.y) ∧
  EncodedAs 0xF00F 0x8003 (fun d => .xorReg d.x d.y) ∧
  ∀ (x y : Nibble) (s : State),
    (∃ t, exec (.orReg x y) s = .next t ∧ Frame { v := (· = x) } s t ∧
      ∀ k, (t.getV x).getLsbD k = ((s.getV x).getLsbD k || (s.getV y).getLsbD k)) ∧
    (∃ t, exec (.andReg x y) s = .next t ∧ Frame { v := (· = x) } s t ∧
      ∀ k, (t.getV x).getLsbD k = ((s.getV x).getLsbD k && (s.getV y).getLsbD k)) ∧
    ∃ t, exec (.xorReg x y) s = .next t ∧ Frame { v := (· = x) } s t ∧
      ∀ k, (t.getV x).getLsbD k = ((s.getV x).getLsbD k != (s.getV y).getLsbD k)

/-- R106, with the destination VF left holding the flag. -/
def Obligations.AddWithCarry : Prop :=
  EncodedAs 0xF00F 0x8004 (fun d => .addReg d.x d.y) ∧
  ∀ (x y : Nibble) (s : State), ∃ t, exec (.addReg x y) s = .next t ∧
    (x ≠ 15 → (t.getV x).toNat = ((s.getV x).toNat + (s.getV y).toNat) % 256) ∧
    t.getV 15 = (if (s.getV x).toNat + (s.getV y).toNat > 255 then 1 else 0) ∧
    Frame { v := fun r => r = x ∨ r = 15 } s t

/-- R107, R109: the difference modulo 256 of `V[x] - V[y]` and of `V[y] - V[x]`, and VF = 1 when there is no borrow. -/
def Obligations.SubtractSetsNoBorrow : Prop :=
  EncodedAs 0xF00F 0x8005 (fun d => .sub d.x d.y) ∧ EncodedAs 0xF00F 0x8007 (fun d => .subn d.x d.y) ∧
  ∀ (x y : Nibble) (s : State),
    (∃ t, exec (.sub x y) s = .next t ∧
      (x ≠ 15 → ((t.getV x).toNat : Int) = ((s.getV x).toNat - (s.getV y).toNat : Int) % 256) ∧
      t.getV 15 = (if (s.getV x).toNat ≥ (s.getV y).toNat then 1 else 0) ∧
      Frame { v := fun r => r = x ∨ r = 15 } s t) ∧
    ∃ t, exec (.subn x y) s = .next t ∧
      (x ≠ 15 → ((t.getV x).toNat : Int) = ((s.getV y).toNat - (s.getV x).toNat : Int) % 256) ∧
      t.getV 15 = (if (s.getV y).toNat ≥ (s.getV x).toNat then 1 else 0) ∧
      Frame { v := fun r => r = x ∨ r = 15 } s t

/-- R108, R110: `V[x]` is shifted, the `y` field is ignored, and VF is the bit shifted out. -/
def Obligations.ShiftsByOne : Prop :=
  EncodedAs 0xF00F 0x8006 (fun d => .shr d.x d.y) ∧ EncodedAs 0xF00F 0x800E (fun d => .shl d.x d.y) ∧
  ∀ (x y : Nibble) (s : State),
    (∃ t, exec (.shr x y) s = .next t ∧ (∀ z, exec (.shr x z) s = .next t) ∧
      (x ≠ 15 → (t.getV x).toNat = (s.getV x).toNat / 2) ∧
      (t.getV 15).toNat = (s.getV x).toNat % 2 ∧ Frame { v := fun r => r = x ∨ r = 15 } s t) ∧
    ∃ t, exec (.shl x y) s = .next t ∧ (∀ z, exec (.shl x z) s = .next t) ∧
      (x ≠ 15 → (t.getV x).toNat = 2 * (s.getV x).toNat % 256) ∧
      (t.getV 15).toNat = (s.getV x).toNat / 128 ∧ Frame { v := fun r => r = x ∨ r = 15 } s t

/-- R111, whatever the step's draw is: never a bit set that `kk` has clear. -/
def Obligations.RndMasksTheDraw : Prop :=
  EncodedAs 0xF000 0xC000 (fun d => .rnd d.x d.kk) ∧
  ∀ (x : Nibble) (kk : Byte) (s : State), ∃ t, exec (.rnd x kk) s = .next t ∧ Frame { v := (· = x) } s t ∧
    ∀ k, (t.getV x).getLsbD k = (s.rand8.getLsbD k && kk.getLsbD k)

/-- R81, R148 as the model carries them (log 3, DESIGN CHOICE): each completed step uses up one draw, whatever the
instruction; a draw supplied to an empty port is the coming step's; and the coming step's draw is the oldest supplied. -/
def Obligations.EachStepHasAFreshDraw : Prop :=
  (∀ (s t : State), step s = .next t → t.status = .running → t.randIn = s.randIn.tail ∧ t.draws = s.draws + 1) ∧
  (∀ (s : State) (b : Byte), s.randIn = [] → (supplyDraw s b).rand8 = b) ∧
  ∀ (s : State) (b : Byte) (rest : List Byte), s.randIn = b :: rest → s.rand8 = b

/-- R115: the arithmetic, logic and random instructions cannot fault, write nothing but general registers, and read nothing
but general registers and the draw; and after a clear screen no sequence of skip and arithmetic instructions sets a cell. -/
def Obligations.ArithmeticTouchesOnlyRegisters : Prop :=
  (∀ (i : Instr), IsArith i → ∀ s : State, ∃ t, exec i s = .next t ∧ Frame { v := fun _ => True } s t ∧
    ∀ s' : State, (∀ r, s'.getV r = s.getV r) → s'.rand8 = s.rand8 →
      ∃ t', exec i s' = .next t' ∧ ∀ r, t'.getV r = t.getV r) ∧
  ∀ (l : List Instr) (s t : State), (∀ i ∈ l, IsArith i ∨ IsSkip i) → execAll (.cls :: l) s = .next t →
    ∀ cx cy, fbCell t.fb cx cy = false

/-! ### Address register and memory -/

/-- R116. -/
def Obligations.LdISetsIndex : Prop :=
  EncodedAs 0xF000 0xA000 (fun d => .ldI d.nnn) ∧
  ∀ (nnn : Addr12) (s : State), ∃ t, exec (.ldI nnn) s = .next t ∧ t.i.toNat = nnn.toNat ∧ Frame { i := True } s t

/-- R117: 16-bit wrap, no mask to the memory size, no flag. -/
def Obligations.AddIWrapsAtSixteenBits : Prop :=
  EncodedAs 0xF0FF 0xF01E (fun d => .addIVx d.x) ∧
  ∀ (x : Nibble) (s : State), ∃ t, exec (.addIVx x) s = .next t ∧
    t.i.toNat = (s.i.toNat + (s.getV x).toNat) % 0x10000 ∧ Frame { i := True } s t

/-- R118: the value is not masked to a digit. -/
def Obligations.LdFPointsAtGlyph : Prop :=
  EncodedAs 0xF0FF 0xF029 (fun d => .ldFVx d.x) ∧
  ∀ (x : Nibble) (s : State), ∃ t, exec (.ldFVx x) s = .next t ∧
    t.i.toNat = (s.params.fontBase.toNat + 5 * (s.getV x).toNat) % 0x10000 ∧ Frame { i := True } s t

/-- R119: hundreds, tens, units at `I`, `I + 1`, `I + 2`; nothing is written where one of them is out of range. -/
def Obligations.LdBStoresDecimalDigits : Prop :=
  EncodedAs 0xF0FF 0xF033 (fun d => .ldBVx d.x) ∧
  ∀ (x : Nibble) (s : State),
    (Memory.wf s.params s.mem = true → s.i.toNat + 2 < 0x1000 → ∃ t, exec (.ldBVx x) s = .next t ∧
      (t.byteAt s.i.toNat).toNat = (s.getV x).toNat / 100 ∧
      (t.byteAt (s.i.toNat + 1)).toNat = (s.getV x).toNat / 10 % 10 ∧
      (t.byteAt (s.i.toNat + 2)).toNat = (s.getV x).toNat % 10 ∧
      Frame { mem := fun a => s.i.toNat ≤ a ∧ a < s.i.toNat + 3 } s t) ∧
    (0x1000 ≤ s.i.toNat + 2 →
      ∃ a, LowestOutOfRange s.i.toNat 3 a ∧ exec (.ldBVx x) s = .fault (.memoryOutOfRange a))

/-- R120: `V[0]` to `V[x]` inclusive, `V[k]` at `I + k`, `I` unchanged; nothing is written where one is out of range. -/
def Obligations.BlockStoreWritesRange : Prop :=
  EncodedAs 0xF0FF 0xF055 (fun d => .ldMemVx d.x) ∧
  ∀ (x : Nibble) (s : State),
    (Memory.wf s.params s.mem = true → s.i.toNat + x.toNat < 0x1000 → ∃ t, exec (.ldMemVx x) s = .next t ∧
      (∀ k : Nibble, k ≤ x → t.byteAt (s.i.toNat + k.toNat) = s.getV k) ∧
      Frame { mem := fun a => s.i.toNat ≤ a ∧ a ≤ s.i.toNat + x.toNat } s t) ∧
    (0x1000 ≤ s.i.toNat + x.toNat →
      ∃ a, LowestOutOfRange s.i.toNat (x.toNat + 1) a ∧ exec (.ldMemVx x) s = .fault (.memoryOutOfRange a))

/-- R121 (its pseudocode; the derived identity is the next statement): `V[0]` to `V[x]` inclusive from `I + k`. -/
def Obligations.BlockLoadReadsRange : Prop :=
  EncodedAs 0xF0FF 0xF065 (fun d => .ldVxMem d.x) ∧
  ∀ (x : Nibble) (s : State),
    (s.i.toNat + x.toNat < 0x1000 → ∃ t, exec (.ldVxMem x) s = .next t ∧
      (∀ k : Nibble, k ≤ x → t.getV k = s.byteAt (s.i.toNat + k.toNat)) ∧ Frame { v := (· ≤ x) } s t) ∧
    (0x1000 ≤ s.i.toNat + x.toNat →
      ∃ a, LowestOutOfRange s.i.toNat (x.toNat + 1) a ∧ exec (.ldVxMem x) s = .fault (.memoryOutOfRange a))

/-- The identity R121 derives: a block store, then anything done to the registers alone, then a block load of the same range
gives the range back. -/
def Obligations.BlockStoreThenLoadIsIdentity : Prop :=
  ∀ (x : Nibble) (s t t' u : State), Memory.wf s.params s.mem = true → exec (.ldMemVx x) s = .next t →
    Frame { v := fun _ => True, pc := True } t t' → exec (.ldVxMem x) t' = .next u →
    ∀ k : Nibble, k ≤ x → u.getV k = s.getV k

/-- R49, R60, R159: a store is seen by the next fetch. The word the next step fetches is the one the block store has put at
its address. -/
def Obligations.FetchSeesEarlierStore : Prop :=
  ∀ (x : Nibble) (s t : State), Memory.wf s.params s.mem = true → RunsInstr s (.ldMemVx x) → step s = .next t →
    t.status = .running → s.i = s.pc + 2 → 1 ≤ x.toNat → fetch t = .ok (s.getV 0 ++ s.getV 1)

/-! ### Timer and key instructions -/

/-- R124 (its pseudocode), R125, R126 as `exec` gives them; the same step's timer phase is `WrittenTimerIsCountedInSameStep`. -/
def Obligations.TimerMoves : Prop :=
  EncodedAs 0xF0FF 0xF007 (fun d => .ldVxDt d.x) ∧ EncodedAs 0xF0FF 0xF015 (fun d => .ldDtVx d.x) ∧
  EncodedAs 0xF0FF 0xF018 (fun d => .ldStVx d.x) ∧
  ∀ (x : Nibble) (s : State),
    (∃ t, exec (.ldVxDt x) s = .next t ∧ t.getV x = s.dt ∧ Frame { v := (· = x) } s t) ∧
    (∃ t, exec (.ldDtVx x) s = .next t ∧ t.dt = s.getV x ∧ Frame { dt := True } s t) ∧
    ∃ t, exec (.ldStVx x) s = .next t ∧ t.st = s.getV x ∧ Frame { st := True } s t

/-- R122, R123, R128: the two key skips, for a value that names a key; a value above 15 raises KeyIndexOutOfRange in both. -/
def Obligations.KeySkips : Prop :=
  EncodedAs 0xF0FF 0xE09E (fun d => .skp d.x) ∧ EncodedAs 0xF0FF 0xE0A1 (fun d => .sknp d.x) ∧
  ∀ (x : Nibble) (s : State),
    (∀ h : (s.getV x).toNat < 16,
      (∃ t, exec (.skp x) s = .next t ∧ t.pc = (if s.keys[(s.getV x).toNat] = true then s.pc + 2 else s.pc) ∧
        Frame { pc := True } s t) ∧
      ∃ t, exec (.sknp x) s = .next t ∧ t.pc = (if s.keys[(s.getV x).toNat] = true then s.pc else s.pc + 2) ∧
        Frame { pc := True } s t) ∧
    (15 < (s.getV x).toNat → exec (.skp x) s = .fault (.keyIndexOutOfRange (s.getV x)) ∧
      exec (.sknp x) s = .fault (.keyIndexOutOfRange (s.getV x)))

/-- R127: with no key latched the step leaves `PC` at the instruction and reports the wait (R80), and both timers keep counting
down with `PerStep`; with one latched the destination gets its code. The latch is read and not consumed, and `KEYS` is not read. -/
def Obligations.WaitForKey : Prop :=
  EncodedAs 0xF0FF 0xF00A (fun d => .ldVxK d.x) ∧
  (∀ (x : Nibble) (s : State), s.keyAny = false → ∃ t, exec (.ldVxK x) s = .next t ∧ t.pc = s.pc - 2 ∧
    Frame { pc := True } s t) ∧
  (∀ (x : Nibble) (s : State), s.keyAny = true → ∃ t, exec (.ldVxK x) s = .next t ∧
    (t.getV x).toNat = s.keyLast.toNat ∧ Frame { v := (· = x) } s t) ∧
  ∀ (x : Nibble) (s : State), RunsInstr s (.ldVxK x) → s.keyAny = false →
    ∃ t, step s = .next t ∧ t.status = .running ∧ t.pc = s.pc ∧ stepResult s = some (.waitingForKey x) ∧
      (∀ r, t.getV r = s.getV r) ∧
      (s.params.timerCoupling = .perStep → t.dt.toNat = s.dt.toNat - 1 ∧ t.st.toNat = s.st.toNat - 1)

/-- R80: the result of a step is `WaitingForKey(x)` exactly when it ran `Fx0A` with no key latched, `Halted(f)` with the
record exactly when it faulted, and `Continue` otherwise. -/
def Obligations.StepResultReportsWaiting : Prop :=
  ∀ (s t : State), s.status = .running → step s = .next t →
    (∀ x, stepResult s = some (.waitingForKey x) ↔ RunsInstr s (.ldVxK x) ∧ s.keyAny = false) ∧
    (∀ f, stepResult s = some (.halted f) ↔ t.status = .halted f) ∧
    (stepResult s = some .continues ↔ t.status = .running ∧ ¬ (s.keyAny = false ∧ ∃ x, RunsInstr s (.ldVxK x)))
end

