-- ==== Sys2Proof/Laws/Decode.lean ====
section
/-! SUPPORT. The nibble splitter on a word written as its fields, the word put together from its fields again, and the four
masks of the opcode map as conditions on the fields (30_encoding.md R62, R65, R66). -/
namespace Sys2Proof

theorem append_eq_append_iff {m n : Nat} {a c : BitVec m} {b d : BitVec n} : a ++ b = c ++ d ↔ a = c ∧ b = d := by
  constructor
  · intro h
    have h1 := congrArg (BitVec.extractLsb' n m) h
    have h2 := congrArg (BitVec.extractLsb' 0 n) h
    rw [BitVec.extractLsb'_append_eq_left, BitVec.extractLsb'_append_eq_left] at h1
    rw [BitVec.extractLsb'_append_eq_right, BitVec.extractLsb'_append_eq_right] at h2
    exact ⟨h1, h2⟩
  · rintro ⟨rfl, rfl⟩; rfl

/-- A word from its four nibbles, the family first. -/
def ofNibbles (f x y n : Nibble) : Word := f ++ (x ++ (y ++ n))

/-- Every word is its four nibbles. -/
theorem word_eq_ofNibbles (w : Word) : w = ofNibbles (split w).family (split w).x (split w).y (split w).n := by
  apply BitVec.eq_of_getLsbD_eq
  intro i hi
  unfold ofNibbles
  erw [BitVec.getLsbD_append, BitVec.getLsbD_append, BitVec.getLsbD_append]
  simp only [split, BitVec.getLsbD_extractLsb']
  split_ifs with h1 h2 h3 <;> (rw [decide_eq_true (by omega), Bool.true_and]; congr 1; omega)

theorem split_ofNibbles (f x y n : Nibble) :
    split (ofNibbles f x y n) = ⟨f, x, y, n, y ++ n, x ++ (y ++ n)⟩ := by
  have hk : (ofNibbles f x y n).extractLsb' 0 12 = x ++ (y ++ n) := BitVec.extractLsb'_append_eq_right
  have low : ∀ (s l : Nat), s + l ≤ 12 →
      (ofNibbles f x y n).extractLsb' s l = (x ++ (y ++ n) : BitVec 12).extractLsb' s l :=
    fun s l h => BitVec.extractLsb'_append_eq_of_add_le (xhi := f) (xlo := (x ++ (y ++ n) : BitVec 12)) (by omega)
  have low8 : ∀ (s l : Nat), s + l ≤ 8 →
      (x ++ (y ++ n) : BitVec 12).extractLsb' s l = (y ++ n : BitVec 8).extractLsb' s l :=
    fun s l h => BitVec.extractLsb'_append_eq_of_add_le (xhi := x) (xlo := (y ++ n : BitVec 8)) (by omega)
  unfold split
  congr 1
  · exact BitVec.extractLsb'_append_eq_left
  · rw [low _ _ (by omega)]; exact BitVec.extractLsb'_append_eq_left
  · rw [low _ _ (by omega), low8 _ _ (by omega)]; exact BitVec.extractLsb'_append_eq_left
  · rw [low _ _ (by omega), low8 _ _ (by omega)]; exact BitVec.extractLsb'_append_eq_right
  · rw [low _ _ (by omega)]; exact BitVec.extractLsb'_append_eq_right

/-- A byte is two nibbles. -/
theorem exists_nibbles_of_byte (b : Byte) : ∃ h l : Nibble, b = h ++ l :=
  ⟨b.extractLsb' 4 4, b.extractLsb' 0 4, (BitVec.extractLsb'_append_extractLsb' (w := 4) (len := 4) (x := b)).symm⟩

/-- A 12-bit address is three nibbles. -/
theorem exists_nibbles_of_addr (a : Addr12) : ∃ h m l : Nibble, a = h ++ (m ++ l) := by
  obtain ⟨m, l, h⟩ := exists_nibbles_of_byte (a.extractLsb' 0 8)
  exact ⟨a.extractLsb' 8 4, m, l,
    h ▸ (BitVec.extractLsb'_append_extractLsb' (w := 4) (len := 8) (x := a)).symm⟩

/-- The fields of a word of the form `_xkk`. -/
theorem split_xkk (f x : Nibble) (kk : Byte) :
    (split (f ++ (x ++ kk))).family = f ∧ (split (f ++ (x ++ kk))).x = x ∧ (split (f ++ (x ++ kk))).kk = kk := by
  obtain ⟨h, l, rfl⟩ := exists_nibbles_of_byte kk
  have := split_ofNibbles f x h l
  unfold ofNibbles at this
  simp only [this, and_self]

/-- The fields of a word of the form `_nnn`. -/
theorem split_nnn (f : Nibble) (nnn : Addr12) : (split (f ++ nnn)).family = f ∧ (split (f ++ nnn)).nnn = nnn := by
  obtain ⟨h, m, l, rfl⟩ := exists_nibbles_of_addr nnn
  have := split_ofNibbles f h m l
  unfold ofNibbles at this
  simp only [this, and_self]

/-- The fields of a word of the form `_xyn`. -/
theorem split_xyn (f x y n : Nibble) :
    (split (f ++ (x ++ (y ++ n)))).family = f ∧ (split (f ++ (x ++ (y ++ n)))).x = x ∧
      (split (f ++ (x ++ (y ++ n)))).y = y ∧ (split (f ++ (x ++ (y ++ n)))).n = n := by
  have := split_ofNibbles f x y n
  unfold ofNibbles at this
  simp only [this, and_self]

/-- A word of the form `_xkk` put together from its fields. -/
theorem word_eq_xkk (w : Word) : w = (split w).family ++ ((split w).x ++ (split w).kk) := by
  have h := word_eq_ofNibbles w
  have hk : (split w).kk = (split w).y ++ (split w).n := by
    have := congrArg Fields.kk (split_ofNibbles (split w).family (split w).x (split w).y (split w).n)
    rwa [← h] at this
  rw [hk]
  exact h

/-- A word of the form `_nnn` put together from its fields. -/
theorem word_eq_nnn (w : Word) : w = (split w).family ++ (split w).nnn := by
  have h := word_eq_ofNibbles w
  have hk : (split w).nnn = (split w).x ++ ((split w).y ++ (split w).n) := by
    have := congrArg Fields.nnn (split_ofNibbles (split w).family (split w).x (split w).y (split w).n)
    rwa [← h] at this
  rw [hk]
  exact h

theorem ofNibbles_inj {f x y n f' x' y' n' : Nibble} :
    ofNibbles f x y n = ofNibbles f' x' y' n' ↔ f = f' ∧ x = x' ∧ y = y' ∧ n = n' := by
  unfold ofNibbles
  constructor
  · intro h
    have h1 := append_eq_append_iff.1 h
    have h2 := append_eq_append_iff.1 h1.2
    exact ⟨h1.1, h2.1, append_eq_append_iff.1 h2.2⟩
  · rintro ⟨rfl, rfl, rfl, rfl⟩; rfl

theorem and_ofNibbles (f x y n a b c d : Nibble) :
    ofNibbles f x y n &&& ofNibbles a b c d = ofNibbles (f &&& a) (x &&& b) (y &&& c) (n &&& d) := by
  unfold ofNibbles
  erw [BitVec.and_append, BitVec.and_append, BitVec.and_append]

theorem nibble_and_ones (a : Nibble) : a &&& 0xF#4 = a := by
  revert a; decide

theorem nibble_and_zero (a : Nibble) : a &&& 0x0#4 = 0x0#4 := by
  revert a; decide

/-- The mask of the one-form families reads the family (R65). -/
theorem mask_F000 (w : Word) (f : Nibble) : w &&& 0xF000 = ofNibbles f 0 0 0 ↔ (split w).family = f := by
  conv_lhs => rw [word_eq_ofNibbles w, show (0xF000 : Word) = ofNibbles 0xF 0 0 0 by decide, and_ofNibbles, ofNibbles_inj]
  simp [nibble_and_ones]

/-- The mask of families 5, 8, 9 reads the family and `n`. -/
theorem mask_F00F (w : Word) (f n : Nibble) :
    w &&& 0xF00F = ofNibbles f 0 0 n ↔ (split w).family = f ∧ (split w).n = n := by
  conv_lhs => rw [word_eq_ofNibbles w, show (0xF00F : Word) = ofNibbles 0xF 0 0 0xF by decide, and_ofNibbles, ofNibbles_inj]
  simp [nibble_and_ones]

/-- The mask of families E and F reads the family and `kk`. -/
theorem mask_F0FF (w : Word) (f y n : Nibble) :
    w &&& 0xF0FF = ofNibbles f 0 y n ↔ (split w).family = f ∧ (split w).kk = y ++ n := by
  have hk : (split w).kk = (split w).y ++ (split w).n := by
    have := congrArg Fields.kk (split_ofNibbles (split w).family (split w).x (split w).y (split w).n)
    rwa [← word_eq_ofNibbles w] at this
  rw [hk]
  conv_lhs => rw [word_eq_ofNibbles w, show (0xF0FF : Word) = ofNibbles 0xF 0 0xF 0xF by decide, and_ofNibbles, ofNibbles_inj]
  rw [append_eq_append_iff]
  simp [nibble_and_ones]

/-- The mask of family 0 reads the whole word. -/
theorem mask_FFFF (w : Word) : w &&& 0xFFFF = w := by
  rw [show (0xFFFF : Word) = BitVec.allOnes 16 by decide, BitVec.and_allOnes]

/-- Two bytes make the word of R49. -/
theorem joinBytes_eq (hi lo : Byte) : joinBytes hi lo = hi.zeroExtend 16 <<< 8 ||| lo.zeroExtend 16 := by
  apply BitVec.eq_of_getLsbD_eq
  intro i hi'
  unfold joinBytes
  erw [BitVec.getLsbD_append]
  rw [BitVec.getLsbD_or, BitVec.getLsbD_shiftLeft]
  by_cases h : i < 8
  · simp [h, hi']
  · have h2 : i - 8 < 16 := by omega
    simp [h, hi', h2, BitVec.getLsbD_of_ge lo i (by omega)]

/-- The bytes of a word, joined again. -/
theorem joinBytes_wordBytes (w : Word) : joinBytes (w.extractLsb' 8 8) (w.extractLsb' 0 8) = w :=
  BitVec.extractLsb'_append_extractLsb' (w := 8) (len := 8) (x := w)

end Sys2Proof
end

