-- ==== Sys2Proof/Laws/State.lean ====
section
/-! SUPPORT. One lemma per field per update of the state, true by rfl, so that no proof unfolds a record update; then reading
a register after each update. -/
namespace Sys2Proof.Machine

variable (s : State)

/-! ### setV -/

@[simp] theorem State.setV_v (x : Nibble) (b : Byte) : (s.setV x b).v = s.v.set x.toNat b x.isLt := rfl
@[simp] theorem State.setV_i (x : Nibble) (b : Byte) : (s.setV x b).i = s.i := rfl
@[simp] theorem State.setV_pc (x : Nibble) (b : Byte) : (s.setV x b).pc = s.pc := rfl
@[simp] theorem State.setV_stack (x : Nibble) (b : Byte) : (s.setV x b).stack = s.stack := rfl
@[simp] theorem State.setV_dt (x : Nibble) (b : Byte) : (s.setV x b).dt = s.dt := rfl
@[simp] theorem State.setV_st (x : Nibble) (b : Byte) : (s.setV x b).st = s.st := rfl
@[simp] theorem State.setV_keys (x : Nibble) (b : Byte) : (s.setV x b).keys = s.keys := rfl
@[simp] theorem State.setV_keyAny (x : Nibble) (b : Byte) : (s.setV x b).keyAny = s.keyAny := rfl
@[simp] theorem State.setV_keyLast (x : Nibble) (b : Byte) : (s.setV x b).keyLast = s.keyLast := rfl
@[simp] theorem State.setV_fb (x : Nibble) (b : Byte) : (s.setV x b).fb = s.fb := rfl
@[simp] theorem State.setV_mem (x : Nibble) (b : Byte) : (s.setV x b).mem = s.mem := rfl
@[simp] theorem State.setV_status (x : Nibble) (b : Byte) : (s.setV x b).status = s.status := rfl
@[simp] theorem State.setV_params (x : Nibble) (b : Byte) : (s.setV x b).params = s.params := rfl
@[simp] theorem State.setV_randIn (x : Nibble) (b : Byte) : (s.setV x b).randIn = s.randIn := rfl
@[simp] theorem State.setV_draws (x : Nibble) (b : Byte) : (s.setV x b).draws = s.draws := rfl

/-! ### setI -/

@[simp] theorem State.setI_v (w : Word) : (s.setI w).v = s.v := rfl
@[simp] theorem State.setI_i (w : Word) : (s.setI w).i = w := rfl
@[simp] theorem State.setI_pc (w : Word) : (s.setI w).pc = s.pc := rfl
@[simp] theorem State.setI_stack (w : Word) : (s.setI w).stack = s.stack := rfl
@[simp] theorem State.setI_dt (w : Word) : (s.setI w).dt = s.dt := rfl
@[simp] theorem State.setI_st (w : Word) : (s.setI w).st = s.st := rfl
@[simp] theorem State.setI_keys (w : Word) : (s.setI w).keys = s.keys := rfl
@[simp] theorem State.setI_keyAny (w : Word) : (s.setI w).keyAny = s.keyAny := rfl
@[simp] theorem State.setI_keyLast (w : Word) : (s.setI w).keyLast = s.keyLast := rfl
@[simp] theorem State.setI_fb (w : Word) : (s.setI w).fb = s.fb := rfl
@[simp] theorem State.setI_mem (w : Word) : (s.setI w).mem = s.mem := rfl
@[simp] theorem State.setI_status (w : Word) : (s.setI w).status = s.status := rfl
@[simp] theorem State.setI_params (w : Word) : (s.setI w).params = s.params := rfl
@[simp] theorem State.setI_randIn (w : Word) : (s.setI w).randIn = s.randIn := rfl
@[simp] theorem State.setI_draws (w : Word) : (s.setI w).draws = s.draws := rfl

/-! ### setPC -/

@[simp] theorem State.setPC_v (w : Word) : (s.setPC w).v = s.v := rfl
@[simp] theorem State.setPC_i (w : Word) : (s.setPC w).i = s.i := rfl
@[simp] theorem State.setPC_pc (w : Word) : (s.setPC w).pc = w := rfl
@[simp] theorem State.setPC_stack (w : Word) : (s.setPC w).stack = s.stack := rfl
@[simp] theorem State.setPC_dt (w : Word) : (s.setPC w).dt = s.dt := rfl
@[simp] theorem State.setPC_st (w : Word) : (s.setPC w).st = s.st := rfl
@[simp] theorem State.setPC_keys (w : Word) : (s.setPC w).keys = s.keys := rfl
@[simp] theorem State.setPC_keyAny (w : Word) : (s.setPC w).keyAny = s.keyAny := rfl
@[simp] theorem State.setPC_keyLast (w : Word) : (s.setPC w).keyLast = s.keyLast := rfl
@[simp] theorem State.setPC_fb (w : Word) : (s.setPC w).fb = s.fb := rfl
@[simp] theorem State.setPC_mem (w : Word) : (s.setPC w).mem = s.mem := rfl
@[simp] theorem State.setPC_status (w : Word) : (s.setPC w).status = s.status := rfl
@[simp] theorem State.setPC_params (w : Word) : (s.setPC w).params = s.params := rfl
@[simp] theorem State.setPC_randIn (w : Word) : (s.setPC w).randIn = s.randIn := rfl
@[simp] theorem State.setPC_draws (w : Word) : (s.setPC w).draws = s.draws := rfl

/-! ### setStack -/

@[simp] theorem State.setStack_v (l : List Word) : (s.setStack l).v = s.v := rfl
@[simp] theorem State.setStack_i (l : List Word) : (s.setStack l).i = s.i := rfl
@[simp] theorem State.setStack_pc (l : List Word) : (s.setStack l).pc = s.pc := rfl
@[simp] theorem State.setStack_stack (l : List Word) : (s.setStack l).stack = l := rfl
@[simp] theorem State.setStack_dt (l : List Word) : (s.setStack l).dt = s.dt := rfl
@[simp] theorem State.setStack_st (l : List Word) : (s.setStack l).st = s.st := rfl
@[simp] theorem State.setStack_keys (l : List Word) : (s.setStack l).keys = s.keys := rfl
@[simp] theorem State.setStack_keyAny (l : List Word) : (s.setStack l).keyAny = s.keyAny := rfl
@[simp] theorem State.setStack_keyLast (l : List Word) : (s.setStack l).keyLast = s.keyLast := rfl
@[simp] theorem State.setStack_fb (l : List Word) : (s.setStack l).fb = s.fb := rfl
@[simp] theorem State.setStack_mem (l : List Word) : (s.setStack l).mem = s.mem := rfl
@[simp] theorem State.setStack_status (l : List Word) : (s.setStack l).status = s.status := rfl
@[simp] theorem State.setStack_params (l : List Word) : (s.setStack l).params = s.params := rfl
@[simp] theorem State.setStack_randIn (l : List Word) : (s.setStack l).randIn = s.randIn := rfl
@[simp] theorem State.setStack_draws (l : List Word) : (s.setStack l).draws = s.draws := rfl

/-! ### setDT -/

@[simp] theorem State.setDT_v (b : Byte) : (s.setDT b).v = s.v := rfl
@[simp] theorem State.setDT_i (b : Byte) : (s.setDT b).i = s.i := rfl
@[simp] theorem State.setDT_pc (b : Byte) : (s.setDT b).pc = s.pc := rfl
@[simp] theorem State.setDT_stack (b : Byte) : (s.setDT b).stack = s.stack := rfl
@[simp] theorem State.setDT_dt (b : Byte) : (s.setDT b).dt = b := rfl
@[simp] theorem State.setDT_st (b : Byte) : (s.setDT b).st = s.st := rfl
@[simp] theorem State.setDT_keys (b : Byte) : (s.setDT b).keys = s.keys := rfl
@[simp] theorem State.setDT_keyAny (b : Byte) : (s.setDT b).keyAny = s.keyAny := rfl
@[simp] theorem State.setDT_keyLast (b : Byte) : (s.setDT b).keyLast = s.keyLast := rfl
@[simp] theorem State.setDT_fb (b : Byte) : (s.setDT b).fb = s.fb := rfl
@[simp] theorem State.setDT_mem (b : Byte) : (s.setDT b).mem = s.mem := rfl
@[simp] theorem State.setDT_status (b : Byte) : (s.setDT b).status = s.status := rfl
@[simp] theorem State.setDT_params (b : Byte) : (s.setDT b).params = s.params := rfl
@[simp] theorem State.setDT_randIn (b : Byte) : (s.setDT b).randIn = s.randIn := rfl
@[simp] theorem State.setDT_draws (b : Byte) : (s.setDT b).draws = s.draws := rfl

/-! ### setST -/

@[simp] theorem State.setST_v (b : Byte) : (s.setST b).v = s.v := rfl
@[simp] theorem State.setST_i (b : Byte) : (s.setST b).i = s.i := rfl
@[simp] theorem State.setST_pc (b : Byte) : (s.setST b).pc = s.pc := rfl
@[simp] theorem State.setST_stack (b : Byte) : (s.setST b).stack = s.stack := rfl
@[simp] theorem State.setST_dt (b : Byte) : (s.setST b).dt = s.dt := rfl
@[simp] theorem State.setST_st (b : Byte) : (s.setST b).st = b := rfl
@[simp] theorem State.setST_keys (b : Byte) : (s.setST b).keys = s.keys := rfl
@[simp] theorem State.setST_keyAny (b : Byte) : (s.setST b).keyAny = s.keyAny := rfl
@[simp] theorem State.setST_keyLast (b : Byte) : (s.setST b).keyLast = s.keyLast := rfl
@[simp] theorem State.setST_fb (b : Byte) : (s.setST b).fb = s.fb := rfl
@[simp] theorem State.setST_mem (b : Byte) : (s.setST b).mem = s.mem := rfl
@[simp] theorem State.setST_status (b : Byte) : (s.setST b).status = s.status := rfl
@[simp] theorem State.setST_params (b : Byte) : (s.setST b).params = s.params := rfl
@[simp] theorem State.setST_randIn (b : Byte) : (s.setST b).randIn = s.randIn := rfl
@[simp] theorem State.setST_draws (b : Byte) : (s.setST b).draws = s.draws := rfl

/-! ### setFB -/

@[simp] theorem State.setFB_v (f : FrameBuffer) : (s.setFB f).v = s.v := rfl
@[simp] theorem State.setFB_i (f : FrameBuffer) : (s.setFB f).i = s.i := rfl
@[simp] theorem State.setFB_pc (f : FrameBuffer) : (s.setFB f).pc = s.pc := rfl
@[simp] theorem State.setFB_stack (f : FrameBuffer) : (s.setFB f).stack = s.stack := rfl
@[simp] theorem State.setFB_dt (f : FrameBuffer) : (s.setFB f).dt = s.dt := rfl
@[simp] theorem State.setFB_st (f : FrameBuffer) : (s.setFB f).st = s.st := rfl
@[simp] theorem State.setFB_keys (f : FrameBuffer) : (s.setFB f).keys = s.keys := rfl
@[simp] theorem State.setFB_keyAny (f : FrameBuffer) : (s.setFB f).keyAny = s.keyAny := rfl
@[simp] theorem State.setFB_keyLast (f : FrameBuffer) : (s.setFB f).keyLast = s.keyLast := rfl
@[simp] theorem State.setFB_fb (f : FrameBuffer) : (s.setFB f).fb = f := rfl
@[simp] theorem State.setFB_mem (f : FrameBuffer) : (s.setFB f).mem = s.mem := rfl
@[simp] theorem State.setFB_status (f : FrameBuffer) : (s.setFB f).status = s.status := rfl
@[simp] theorem State.setFB_params (f : FrameBuffer) : (s.setFB f).params = s.params := rfl
@[simp] theorem State.setFB_randIn (f : FrameBuffer) : (s.setFB f).randIn = s.randIn := rfl
@[simp] theorem State.setFB_draws (f : FrameBuffer) : (s.setFB f).draws = s.draws := rfl

/-! ### setMem -/

@[simp] theorem State.setMem_v (m : List Host.Cell) : (s.setMem m).v = s.v := rfl
@[simp] theorem State.setMem_i (m : List Host.Cell) : (s.setMem m).i = s.i := rfl
@[simp] theorem State.setMem_pc (m : List Host.Cell) : (s.setMem m).pc = s.pc := rfl
@[simp] theorem State.setMem_stack (m : List Host.Cell) : (s.setMem m).stack = s.stack := rfl
@[simp] theorem State.setMem_dt (m : List Host.Cell) : (s.setMem m).dt = s.dt := rfl
@[simp] theorem State.setMem_st (m : List Host.Cell) : (s.setMem m).st = s.st := rfl
@[simp] theorem State.setMem_keys (m : List Host.Cell) : (s.setMem m).keys = s.keys := rfl
@[simp] theorem State.setMem_keyAny (m : List Host.Cell) : (s.setMem m).keyAny = s.keyAny := rfl
@[simp] theorem State.setMem_keyLast (m : List Host.Cell) : (s.setMem m).keyLast = s.keyLast := rfl
@[simp] theorem State.setMem_fb (m : List Host.Cell) : (s.setMem m).fb = s.fb := rfl
@[simp] theorem State.setMem_mem (m : List Host.Cell) : (s.setMem m).mem = m := rfl
@[simp] theorem State.setMem_status (m : List Host.Cell) : (s.setMem m).status = s.status := rfl
@[simp] theorem State.setMem_params (m : List Host.Cell) : (s.setMem m).params = s.params := rfl
@[simp] theorem State.setMem_randIn (m : List Host.Cell) : (s.setMem m).randIn = s.randIn := rfl
@[simp] theorem State.setMem_draws (m : List Host.Cell) : (s.setMem m).draws = s.draws := rfl

/-! ### setStatus -/

@[simp] theorem State.setStatus_v (r : RunStatus) : (s.setStatus r).v = s.v := rfl
@[simp] theorem State.setStatus_i (r : RunStatus) : (s.setStatus r).i = s.i := rfl
@[simp] theorem State.setStatus_pc (r : RunStatus) : (s.setStatus r).pc = s.pc := rfl
@[simp] theorem State.setStatus_stack (r : RunStatus) : (s.setStatus r).stack = s.stack := rfl
@[simp] theorem State.setStatus_dt (r : RunStatus) : (s.setStatus r).dt = s.dt := rfl
@[simp] theorem State.setStatus_st (r : RunStatus) : (s.setStatus r).st = s.st := rfl
@[simp] theorem State.setStatus_keys (r : RunStatus) : (s.setStatus r).keys = s.keys := rfl
@[simp] theorem State.setStatus_keyAny (r : RunStatus) : (s.setStatus r).keyAny = s.keyAny := rfl
@[simp] theorem State.setStatus_keyLast (r : RunStatus) : (s.setStatus r).keyLast = s.keyLast := rfl
@[simp] theorem State.setStatus_fb (r : RunStatus) : (s.setStatus r).fb = s.fb := rfl
@[simp] theorem State.setStatus_mem (r : RunStatus) : (s.setStatus r).mem = s.mem := rfl
@[simp] theorem State.setStatus_status (r : RunStatus) : (s.setStatus r).status = r := rfl
@[simp] theorem State.setStatus_params (r : RunStatus) : (s.setStatus r).params = s.params := rfl
@[simp] theorem State.setStatus_randIn (r : RunStatus) : (s.setStatus r).randIn = s.randIn := rfl
@[simp] theorem State.setStatus_draws (r : RunStatus) : (s.setStatus r).draws = s.draws := rfl

/-! ### nextDraw -/

@[simp] theorem State.nextDraw_v : (s.nextDraw).v = s.v := rfl
@[simp] theorem State.nextDraw_i : (s.nextDraw).i = s.i := rfl
@[simp] theorem State.nextDraw_pc : (s.nextDraw).pc = s.pc := rfl
@[simp] theorem State.nextDraw_stack : (s.nextDraw).stack = s.stack := rfl
@[simp] theorem State.nextDraw_dt : (s.nextDraw).dt = s.dt := rfl
@[simp] theorem State.nextDraw_st : (s.nextDraw).st = s.st := rfl
@[simp] theorem State.nextDraw_keys : (s.nextDraw).keys = s.keys := rfl
@[simp] theorem State.nextDraw_keyAny : (s.nextDraw).keyAny = s.keyAny := rfl
@[simp] theorem State.nextDraw_keyLast : (s.nextDraw).keyLast = s.keyLast := rfl
@[simp] theorem State.nextDraw_fb : (s.nextDraw).fb = s.fb := rfl
@[simp] theorem State.nextDraw_mem : (s.nextDraw).mem = s.mem := rfl
@[simp] theorem State.nextDraw_status : (s.nextDraw).status = s.status := rfl
@[simp] theorem State.nextDraw_params : (s.nextDraw).params = s.params := rfl
@[simp] theorem State.nextDraw_randIn : (s.nextDraw).randIn = s.randIn.tail := rfl
@[simp] theorem State.nextDraw_draws : (s.nextDraw).draws = s.draws + 1 := rfl

/-! ### Registers after an update -/

theorem getV_setV (x r : Nibble) (b : Byte) : (s.setV x b).getV r = if r = x then b else s.getV r := by
  unfold State.getV State.setV
  simp only [Vector.getElem_set]
  by_cases h : r = x
  · simp [h]
  · have : x.toNat ≠ r.toNat := fun e => h (BitVec.eq_of_toNat_eq e.symm)
    simp [h, this]

@[simp] theorem getV_setV_same (x : Nibble) (b : Byte) : (s.setV x b).getV x = b := by simp [getV_setV]

theorem getV_setV_other {x r : Nibble} (h : r ≠ x) (b : Byte) : (s.setV x b).getV r = s.getV r := by simp [getV_setV, h]

/-- Writing a register the value it holds changes nothing. -/
@[simp] theorem setV_getV (x : Nibble) : s.setV x (s.getV x) = s := by
  simp [State.setV, State.getV]

@[simp] theorem getV_setI (w : Word) (r : Nibble) : (s.setI w).getV r = s.getV r := rfl
@[simp] theorem getV_setPC (w : Word) (r : Nibble) : (s.setPC w).getV r = s.getV r := rfl
@[simp] theorem getV_setStack (l : List Word) (r : Nibble) : (s.setStack l).getV r = s.getV r := rfl
@[simp] theorem getV_setDT (b : Byte) (r : Nibble) : (s.setDT b).getV r = s.getV r := rfl
@[simp] theorem getV_setST (b : Byte) (r : Nibble) : (s.setST b).getV r = s.getV r := rfl
@[simp] theorem getV_setFB (f : FrameBuffer) (r : Nibble) : (s.setFB f).getV r = s.getV r := rfl
@[simp] theorem getV_setMem (m : List Host.Cell) (r : Nibble) : (s.setMem m).getV r = s.getV r := rfl
@[simp] theorem getV_setStatus (u : RunStatus) (r : Nibble) : (s.setStatus u).getV r = s.getV r := rfl
@[simp] theorem getV_nextDraw (r : Nibble) : (s.nextDraw).getV r = s.getV r := rfl

/-! ### The byte at an address after an update -/

@[simp] theorem byteAt_setV (x : Nibble) (b : Byte) (k : Nat) : (s.setV x b).byteAt k = s.byteAt k := rfl
@[simp] theorem byteAt_setI (w : Word) (k : Nat) : (s.setI w).byteAt k = s.byteAt k := rfl
@[simp] theorem byteAt_setPC (w : Word) (k : Nat) : (s.setPC w).byteAt k = s.byteAt k := rfl
@[simp] theorem byteAt_setStack (l : List Word) (k : Nat) : (s.setStack l).byteAt k = s.byteAt k := rfl
@[simp] theorem byteAt_setDT (b : Byte) (k : Nat) : (s.setDT b).byteAt k = s.byteAt k := rfl
@[simp] theorem byteAt_setST (b : Byte) (k : Nat) : (s.setST b).byteAt k = s.byteAt k := rfl
@[simp] theorem byteAt_setFB (f : FrameBuffer) (k : Nat) : (s.setFB f).byteAt k = s.byteAt k := rfl
@[simp] theorem byteAt_setStatus (r : RunStatus) (k : Nat) : (s.setStatus r).byteAt k = s.byteAt k := rfl
@[simp] theorem byteAt_nextDraw (k : Nat) : (s.nextDraw).byteAt k = s.byteAt k := rfl

end Sys2Proof.Machine
end

