-- ==== Sys2Proof/Laws/Memory.lean ====
section
/-! SUPPORT. Memory: a read after a write, and the canonical form kept by every write (20_memory.md R46 to R53). -/
namespace Sys2Proof.Machine

/-! ### Rising lists of cells -/

theorem lookupCell_none_of_rising {m : List Host.Cell} : ∀ {lo a : Nat}, risingFrom lo m = true → a < lo →
    lookupCell m a = none := by
  induction m with
  | nil => intros; rfl
  | cons c m ih =>
    obtain ⟨k, b⟩ := c
    intro lo a h ha
    simp only [risingFrom, Bool.and_eq_true, decide_eq_true_eq] at h
    have hk : k ≠ a := by omega
    simpa [lookupCell, hk] using ih h.2 (by omega : a < k + 1)

theorem lookupCell_insertCell (m : List Host.Cell) (a k : Nat) (b : Byte) :
    lookupCell (insertCell a b m) k = if k = a then some b else lookupCell m k := by
  induction m with
  | nil => simp [insertCell, lookupCell, eq_comm]
  | cons c m ih =>
    obtain ⟨j, d⟩ := c
    by_cases h : k = a
    · subst h
      unfold insertCell
      by_cases h1 : k < j
      · simp [h1, lookupCell]
      · by_cases h2 : k = j
        · simp [h2, lookupCell]
        · simp [h1, h2, lookupCell, ih, Ne.symm h2]
    · unfold insertCell
      by_cases h1 : a < j
      · simp [h1, h, lookupCell, Ne.symm h]
      · by_cases h2 : a = j
        · subst h2; simp [lookupCell, h, Ne.symm h]
        · simp [h1, h2, lookupCell, ih, h]

theorem lookupCell_eraseCell_other (m : List Host.Cell) {a k : Nat} (h : k ≠ a) :
    lookupCell (eraseCell a m) k = lookupCell m k := by
  induction m with
  | nil => rfl
  | cons c m ih =>
    obtain ⟨j, d⟩ := c
    unfold eraseCell
    split_ifs with h1
    · subst h1; simp [lookupCell, Ne.symm h]
    · simp [lookupCell, ih]

theorem lookupCell_eraseCell_same {m : List Host.Cell} : ∀ {lo : Nat}, risingFrom lo m = true → ∀ a,
    lookupCell (eraseCell a m) a = none := by
  induction m with
  | nil => intros; rfl
  | cons c m ih =>
    obtain ⟨j, d⟩ := c
    intro lo h a
    simp only [risingFrom, Bool.and_eq_true, decide_eq_true_eq] at h
    unfold eraseCell
    split_ifs with h1
    · subst h1; exact lookupCell_none_of_rising h.2 (by omega)
    · simpa [lookupCell, h1] using ih h.2 a

theorem risingFrom_mono {m : List Host.Cell} {lo lo' : Nat} (hle : lo' ≤ lo) (h : risingFrom lo m = true) :
    risingFrom lo' m = true := by
  cases m with
  | nil => rfl
  | cons c m =>
    simp only [risingFrom, Bool.and_eq_true, decide_eq_true_eq] at h ⊢
    exact ⟨by omega, h.2⟩

theorem risingFrom_insertCell {m : List Host.Cell} : ∀ {lo a : Nat} {b : Byte}, risingFrom lo m = true → lo ≤ a →
    risingFrom lo (insertCell a b m) = true := by
  induction m with
  | nil => intro lo a b _ h; simp [insertCell, risingFrom, h]
  | cons c m ih =>
    obtain ⟨j, d⟩ := c
    intro lo a b h ha
    simp only [risingFrom, Bool.and_eq_true, decide_eq_true_eq] at h
    unfold insertCell
    split_ifs with h1 h2
    · simp only [risingFrom, Bool.and_eq_true, decide_eq_true_eq]
      exact ⟨ha, by omega, h.2⟩
    · subst h2; simp only [risingFrom, Bool.and_eq_true, decide_eq_true_eq]; exact ⟨ha, h.2⟩
    · simp only [risingFrom, Bool.and_eq_true, decide_eq_true_eq]; exact ⟨h.1, ih h.2 (by omega)⟩

theorem risingFrom_eraseCell {m : List Host.Cell} : ∀ {lo a : Nat}, risingFrom lo m = true →
    risingFrom lo (eraseCell a m) = true := by
  induction m with
  | nil => intros; rfl
  | cons c m ih =>
    obtain ⟨j, d⟩ := c
    intro lo a h
    simp only [risingFrom, Bool.and_eq_true, decide_eq_true_eq] at h
    unfold eraseCell
    split_ifs with h1
    · exact risingFrom_mono (by omega) h.2
    · simp only [risingFrom, Bool.and_eq_true, decide_eq_true_eq]; exact ⟨h.1, ih h.2⟩

theorem mem_insertCell {m : List Host.Cell} {a : Nat} {b : Byte} {c : Host.Cell} (h : c ∈ insertCell a b m) :
    c = (a, b) ∨ c ∈ m := by
  induction m with
  | nil => simpa [insertCell] using h
  | cons d m ih =>
    obtain ⟨j, d⟩ := d
    unfold insertCell at h
    split_ifs at h with h1 h2
    · simpa using h
    · simp only [List.mem_cons] at h ⊢; tauto
    · simp only [List.mem_cons] at h ⊢
      rcases h with h | h
      · exact .inr (.inl h)
      · rcases ih h with h | h <;> simp [h]

theorem mem_eraseCell {m : List Host.Cell} {a : Nat} {c : Host.Cell} (h : c ∈ eraseCell a m) : c ∈ m := by
  induction m with
  | nil => simp [eraseCell] at h
  | cons d m ih =>
    obtain ⟨j, d⟩ := d
    unfold eraseCell at h
    split_ifs at h with h1
    · exact List.mem_cons_of_mem _ h
    · simp only [List.mem_cons] at h ⊢
      exact h.imp id ih

/-! ### The canonical form -/

theorem wf_iff {p : Params} {m : List Host.Cell} : Memory.wf p m = true ↔
    risingFrom 0 m = true ∧ ∀ c ∈ m, c.1 < memSize ∧ c.2 ≠ background p c.1 := by
  simp only [Memory.wf, Bool.and_eq_true, List.all_eq_true, decide_eq_true_eq]

theorem wf_writeCells {p : Params} {m : List Host.Cell} {a : Nat} (b : Byte) (h : Memory.wf p m = true)
    (ha : a < memSize) : Memory.wf p (writeCells p m a b) = true := by
  rw [wf_iff] at h ⊢
  unfold writeCells
  split_ifs with hb
  · exact ⟨risingFrom_eraseCell h.1, fun c hc => h.2 c (mem_eraseCell hc)⟩
  · refine ⟨risingFrom_insertCell h.1 (Nat.zero_le _), fun c hc => ?_⟩
    rcases mem_insertCell hc with rfl | hc
    · exact ⟨ha, hb⟩
    · exact h.2 c hc

/-! ### Reading after writing -/

theorem readCells_writeCells_other (p : Params) (m : List Host.Cell) {a k : Nat} (b : Byte) (h : k ≠ a) :
    readCells p (writeCells p m a b) k = readCells p m k := by
  unfold readCells writeCells
  split_ifs
  · rw [lookupCell_eraseCell_other m h]
  · simp [lookupCell_insertCell, h]

theorem readCells_writeCells_same {p : Params} {m : List Host.Cell} (a : Nat) (b : Byte) (h : Memory.wf p m = true) :
    readCells p (writeCells p m a b) a = b := by
  rw [wf_iff] at h
  unfold readCells writeCells
  split_ifs with hb
  · simp [lookupCell_eraseCell_same h.1 a, hb]
  · simp [lookupCell_insertCell]

/-- The state's memory is in its canonical form. -/
abbrev State.MemWf (s : State) : Prop := Memory.wf s.params s.mem = true

@[simp] theorem memWf_reset : State.reset.MemWf := by decide

theorem byteAt_storeByte_same {s : State} (h : s.MemWf) {a : Nat} (ha : a < memSize) (b : Byte) :
    (s.storeByte a b).byteAt a = b := by
  simp [State.storeByte, State.byteAt, ha, readCells_writeCells_same a b h]

theorem byteAt_storeByte_other (s : State) {a k : Nat} (h : k ≠ a) (b : Byte) :
    (s.storeByte a b).byteAt k = s.byteAt k := by
  unfold State.storeByte
  split_ifs
  · simp [State.byteAt, readCells_writeCells_other _ _ b h]
  · rfl

theorem memWf_storeByte {s : State} (h : s.MemWf) (a : Nat) (b : Byte) : (s.storeByte a b).MemWf := by
  unfold State.storeByte
  split_ifs with ha
  · exact wf_writeCells b h ha
  · exact h

theorem storeByte_eq (s : State) (a : Nat) (b : Byte) : ∃ m, s.storeByte a b = s.setMem m := by
  unfold State.storeByte
  split_ifs
  · exact ⟨_, rfl⟩
  · exact ⟨s.mem, rfl⟩

/-- A block store changes nothing but the memory list. -/
theorem storeBytes_eq (bs : List Byte) : ∀ (s : State) (a : Nat), ∃ m, s.storeBytes a bs = s.setMem m := by
  induction bs with
  | nil => intro s a; exact ⟨s.mem, rfl⟩
  | cons b bs ih =>
    intro s a
    obtain ⟨m, hm⟩ := storeByte_eq s a b
    obtain ⟨m', hm'⟩ := ih (s.storeByte a b) (a + 1)
    exact ⟨m', by rw [State.storeBytes, hm', hm]; rfl⟩

theorem memWf_storeBytes (bs : List Byte) : ∀ {s : State} (_ : s.MemWf) (a : Nat), (s.storeBytes a bs).MemWf := by
  induction bs with
  | nil => intro s h a; exact h
  | cons b bs ih => intro s h a; exact ih (memWf_storeByte h a b) (a + 1)

theorem byteAt_storeBytes_other (bs : List Byte) : ∀ (s : State) {a k : Nat}, ¬ (a ≤ k ∧ k < a + bs.length) →
    (s.storeBytes a bs).byteAt k = s.byteAt k := by
  induction bs with
  | nil => intros; rfl
  | cons b bs ih =>
    intro s a k h
    simp only [List.length_cons] at h
    rw [State.storeBytes, ih _ (by omega), byteAt_storeByte_other _ (by omega)]

theorem byteAt_storeBytes (bs : List Byte) : ∀ {s : State} (_ : s.MemWf) {a j : Nat} (hj : j < bs.length),
    a + bs.length ≤ memSize → (s.storeBytes a bs).byteAt (a + j) = bs[j] := by
  induction bs with
  | nil => intro s _ a j hj; simp at hj
  | cons b bs ih =>
    intro s h a j hj hr
    simp only [List.length_cons] at hj hr
    rw [State.storeBytes]
    cases j with
    | zero =>
      rw [byteAt_storeBytes_other _ _ (by omega)]
      exact byteAt_storeByte_same h (by omega) b
    | succ j =>
      have := ih (memWf_storeByte h a b) (a := a + 1) (j := j) (by omega) (by omega)
      rw [show a + (j + 1) = a + 1 + j by omega, this]
      rfl

@[simp] theorem loadBytes_length (s : State) (base len : Nat) : (s.loadBytes base len).length = len := by
  simp [State.loadBytes]

@[simp] theorem loadBytes_getElem (s : State) (base len j : Nat) (h : j < (s.loadBytes base len).length) :
    (s.loadBytes base len)[j] = s.byteAt (base + j) := by
  simp [State.loadBytes]

@[simp] theorem regsUpTo_length (s : State) (x : Nibble) : (s.regsUpTo x).length = x.toNat + 1 := by
  simp [State.regsUpTo]

@[simp] theorem regsUpTo_getElem (s : State) (x : Nibble) (j : Nat) (h : j < (s.regsUpTo x).length) :
    (s.regsUpTo x)[j] = s.getV (BitVec.ofNat 4 j) := by
  simp [State.regsUpTo]

/-! ### The bounds check (R53) -/

theorem rangeFault_none {base len : Nat} (h : base + len ≤ memSize) : rangeFault base len = none := by
  simp [rangeFault, h]

theorem withRange_ok {base len : Nat} (h : base + len ≤ memSize) (k : Out) : withRange base len k = k := by
  simp [withRange, rangeFault_none h]

theorem withRange_zero (base : Nat) (k : Out) : withRange base 0 k = k := by
  simp [withRange, rangeFault]

theorem withRange_out {base len : Nat} (hl : len ≠ 0) (h : memSize < base + len) (k : Out) :
    withRange base len k = .fault (.memoryOutOfRange (max base memSize)) := by
  have : ¬ (len = 0 ∨ base + len ≤ memSize) := by omega
  simp [withRange, rangeFault, this]

/-- All a checked access can do: go on with every address in range, or fault. -/
theorem withRange_cases (base len : Nat) (k : Out) :
    (len = 0 ∨ base + len ≤ memSize) ∧ withRange base len k = k ∨
      len ≠ 0 ∧ memSize < base + len ∧ withRange base len k = .fault (.memoryOutOfRange (max base memSize)) := by
  by_cases h : len = 0 ∨ base + len ≤ memSize
  · exact .inl ⟨h, by simp [withRange, rangeFault, h]⟩
  · exact .inr ⟨by omega, by omega, withRange_out (by omega) (by omega) k⟩

end Sys2Proof.Machine
end

