-- ==== Sys2Proof/Laws/FrameBuffer.lean ====
section
/-! SUPPORT. The framebuffer: a cell after a write, and what drawing a sprite row by row does to every cell and to the
collision flag (41_display.md R86 to R90). -/
namespace Sys2Proof.Machine

theorem fbCell_outside (f : FrameBuffer) {cx cy : Nat} (h : ¬ (cx < 64 ∧ cy < 32)) : fbCell f cx cy = false := by
  simp [fbCell, h]

@[simp] theorem fbCell_fbClear (cx cy : Nat) : fbCell fbClear cx cy = false := by
  unfold fbCell fbClear
  split_ifs <;> simp

theorem fbCell_fbSet_same (f : FrameBuffer) {cx cy : Nat} (h : cx < 64 ∧ cy < 32) (b : Bool) :
    fbCell (fbSet f cx cy b) cx cy = b := by
  simp [fbCell, fbSet, h]

theorem fbCell_fbSet_other (f : FrameBuffer) {cx cy x y : Nat} (h : ¬ (x = cx ∧ y = cy)) (b : Bool) :
    fbCell (fbSet f cx cy b) x y = fbCell f x y := by
  unfold fbSet
  split_ifs with hc
  · unfold fbCell
    split_ifs with hx
    · simp only [Vector.getElem_set]
      by_cases hy : cy = y
      · subst hy
        have : cx ≠ x := fun e => h ⟨e.symm, rfl⟩
        simp [this]
      · simp [hy]
    · rfl
  · rfl

/-- Two framebuffers with the same cells are the same. -/
theorem fb_ext {f g : FrameBuffer} (h : ∀ cx cy, cx < 64 → cy < 32 → fbCell f cx cy = fbCell g cx cy) : f = g := by
  apply Vector.ext
  intro y hy
  apply Vector.ext
  intro x hx
  simpa [fbCell, hx, hy] using h x y hx hy

/-- The cell `(x, y)` after one set sprite bit at `(cx, cy)`. -/
theorem drawCell_cell (cx cy x y : Nat) (acc : FrameBuffer × Bool) :
    fbCell (drawCell cx cy acc).1 x y =
      (fbCell acc.1 x y ^^ decide (x = cx ∧ y = cy ∧ x < 64 ∧ y < 32)) := by
  unfold drawCell
  split_ifs with h
  · by_cases e : x = cx ∧ y = cy
    · obtain ⟨rfl, rfl⟩ := e
      simp [fbCell_fbSet_same acc.1 h, h]
    · have : ¬ (x = cx ∧ y = cy ∧ x < 64 ∧ y < 32) := fun k => e ⟨k.1, k.2.1⟩
      simp [fbCell_fbSet_other acc.1 e, this]
  · have : ¬ (x = cx ∧ y = cy ∧ x < 64 ∧ y < 32) := fun k => h ⟨k.1 ▸ k.2.2.1, k.2.1 ▸ k.2.2.2⟩
    simp [this]

/-- The collision flag after one set sprite bit at `(cx, cy)`: it notes a set cell; a clipped one reads as not set. -/
theorem drawCell_col (cx cy : Nat) (acc : FrameBuffer × Bool) :
    (drawCell cx cy acc).2 = (acc.2 || fbCell acc.1 cx cy) := by
  unfold drawCell
  split_ifs with h
  · rfl
  · simp [fbCell_outside acc.1 h]

/-- The first `n` columns of a sprite row. -/
def drawCols (ox cy : Nat) (row : Byte) (n : Nat) (acc : FrameBuffer × Bool) : FrameBuffer × Bool :=
  (List.range n).foldl (fun acc c => if spriteBit row c then drawCell (ox + c) cy acc else acc) acc

theorem drawCols_succ (ox cy : Nat) (row : Byte) (n : Nat) (acc : FrameBuffer × Bool) :
    drawCols ox cy row (n + 1) acc =
      if spriteBit row n then drawCell (ox + n) cy (drawCols ox cy row n acc) else drawCols ox cy row n acc := by
  simp [drawCols, List.range_succ]

theorem drawCols_cell (ox cy : Nat) (row : Byte) (n : Nat) (acc : FrameBuffer × Bool) (x y : Nat) :
    fbCell (drawCols ox cy row n acc).1 x y =
      (fbCell acc.1 x y ^^
        decide (x < 64 ∧ y < 32 ∧ y = cy ∧ ox ≤ x ∧ x < ox + n ∧ spriteBit row (x - ox) = true)) := by
  induction n with
  | zero =>
    have : ¬ (x < 64 ∧ y < 32 ∧ y = cy ∧ ox ≤ x ∧ x < ox + 0 ∧ spriteBit row (x - ox) = true) := by omega
    rw [decide_eq_false this]
    simp [drawCols]
  | succ n ih =>
    rw [drawCols_succ]
    split_ifs with hb
    · rw [drawCell_cell, ih, Bool.xor_assoc]
      congr 1
      by_cases hx : x = ox + n
      · have h1 : ¬ (x < 64 ∧ y < 32 ∧ y = cy ∧ ox ≤ x ∧ x < ox + n ∧ spriteBit row (x - ox) = true) := by omega
        have h2 : spriteBit row (x - ox) = true := by rwa [show x - ox = n by omega]
        rw [decide_eq_false h1, Bool.false_xor, decide_eq_decide]
        constructor
        · rintro ⟨_, k1, k2, k3⟩; exact ⟨k2, k3, k1, by omega, by omega, h2⟩
        · rintro ⟨k2, k3, k1, _⟩; exact ⟨hx, k1, k2, k3⟩
      · have h1 : ¬ (x = ox + n ∧ y = cy ∧ x < 64 ∧ y < 32) := fun k => hx k.1
        rw [decide_eq_false h1, Bool.xor_false, decide_eq_decide]
        constructor
        · rintro ⟨a, b, c, d, e, f⟩; exact ⟨a, b, c, d, by omega, f⟩
        · rintro ⟨a, b, c, d, e, f⟩; exact ⟨a, b, c, d, by omega, f⟩
    · rw [ih]
      congr 2
      rw [eq_iff_iff]
      constructor
      · rintro ⟨a, b, c, d, e, f⟩; exact ⟨a, b, c, d, by omega, f⟩
      · rintro ⟨a, b, c, d, e, f⟩
        refine ⟨a, b, c, d, ?_, f⟩
        by_contra hn
        exact hb (by rwa [show x - ox = n by omega] at f)

theorem drawCols_col (ox cy : Nat) (row : Byte) (n : Nat) (acc : FrameBuffer × Bool) :
    (drawCols ox cy row n acc).2 = true ↔
      acc.2 = true ∨ ∃ c, c < n ∧ spriteBit row c = true ∧ fbCell acc.1 (ox + c) cy = true := by
  induction n with
  | zero => simp [drawCols]
  | succ n ih =>
    have hcell : fbCell (drawCols ox cy row n acc).1 (ox + n) cy = fbCell acc.1 (ox + n) cy := by
      rw [drawCols_cell, decide_eq_false (by omega), Bool.xor_false]
    rw [drawCols_succ]
    split_ifs with hb
    · rw [drawCell_col, hcell, Bool.or_eq_true, ih]
      constructor
      · rintro ((h | ⟨c, hc, h⟩) | h)
        · exact .inl h
        · exact .inr ⟨c, by omega, h⟩
        · exact .inr ⟨n, by omega, hb, h⟩
      · rintro (h | ⟨c, hc, h, h'⟩)
        · exact .inl (.inl h)
        · rcases Nat.lt_succ_iff_lt_or_eq.mp hc with hc | rfl
          · exact .inl (.inr ⟨c, hc, h, h'⟩)
          · exact .inr h'
    · rw [ih]
      constructor
      · rintro (h | ⟨c, hc, h⟩)
        · exact .inl h
        · exact .inr ⟨c, by omega, h⟩
      · rintro (h | ⟨c, hc, h, h'⟩)
        · exact .inl h
        · rcases Nat.lt_succ_iff_lt_or_eq.mp hc with hc | rfl
          · exact .inr ⟨c, hc, h, h'⟩
          · exact absurd h hb

/-- The set bits of a sprite with rows `rows` and its top-left corner at `(ox, oy)`, on the grid or not. -/
def onSprite (rows : List Byte) (ox oy x y : Nat) : Prop :=
  ox ≤ x ∧ x < ox + 8 ∧ oy ≤ y ∧ ∃ row, rows[y - oy]? = some row ∧ spriteBit row (x - ox) = true

theorem onSprite_cons (row : Byte) (rows : List Byte) (ox oy x y : Nat) :
    onSprite (row :: rows) ox oy x y ↔
      y = oy ∧ ox ≤ x ∧ x < ox + 8 ∧ spriteBit row (x - ox) = true ∨ onSprite rows ox (oy + 1) x y := by
  unfold onSprite
  constructor
  · rintro ⟨h1, h2, h3, r, hr, hb⟩
    by_cases h : y = oy
    · subst h
      simp only [Nat.sub_self, List.getElem?_cons_zero, Option.some.injEq] at hr
      exact .inl ⟨rfl, h1, h2, hr ▸ hb⟩
    · right
      rw [show y - oy = (y - (oy + 1)) + 1 by omega, List.getElem?_cons_succ] at hr
      exact ⟨h1, h2, by omega, r, hr, hb⟩
  · rintro (⟨rfl, h1, h2, hb⟩ | ⟨h1, h2, h3, r, hr, hb⟩)
    · exact ⟨h1, h2, Nat.le_refl _, row, by simp, hb⟩
    · refine ⟨h1, h2, by omega, r, ?_, hb⟩
      rw [show y - oy = (y - (oy + 1)) + 1 by omega, List.getElem?_cons_succ]
      exact hr

/-- After the draw a cell of the grid is flipped exactly where the sprite has a set bit on it. -/
theorem drawRows_cell (rows : List Byte) : ∀ (ox oy : Nat) (acc : FrameBuffer × Bool) (x y : Nat),
    (fbCell (drawRows ox oy rows acc).1 x y = true ↔
      (fbCell acc.1 x y = true ↔ ¬ (x < 64 ∧ y < 32 ∧ onSprite rows ox oy x y))) := by
  induction rows with
  | nil => intro ox oy acc x y; simp [drawRows, onSprite]
  | cons row rows ih =>
    intro ox oy acc x y
    have hrow : drawRow ox oy row acc = drawCols ox oy row 8 acc := rfl
    rw [drawRows, ih, hrow, drawCols_cell, onSprite_cons]
    have hdisj : onSprite rows ox (oy + 1) x y → y ≠ oy := fun h => by have := h.2.2.1; omega
    generalize hA : decide (x < 64 ∧ y < 32 ∧ y = oy ∧ ox ≤ x ∧ x < ox + 8 ∧ spriteBit row (x - ox) = true) = a
    have hA' : a = true ↔ x < 64 ∧ y < 32 ∧ y = oy ∧ ox ≤ x ∧ x < ox + 8 ∧ spriteBit row (x - ox) = true := by
      rw [← hA, decide_eq_true_eq]
    cases fbCell acc.1 x y <;> cases a <;> simp_all <;> tauto

/-- The draw collides exactly where a set sprite bit lies on a set cell; a clipped cell is none. -/
theorem drawRows_col (rows : List Byte) : ∀ (ox oy : Nat) (acc : FrameBuffer × Bool),
    ((drawRows ox oy rows acc).2 = true ↔
      acc.2 = true ∨ ∃ x y, onSprite rows ox oy x y ∧ fbCell acc.1 x y = true) := by
  induction rows with
  | nil => intro ox oy acc; simp [drawRows, onSprite]
  | cons row rows ih =>
    intro ox oy acc
    have hrow : drawRow ox oy row acc = drawCols ox oy row 8 acc := rfl
    have hcell : ∀ x y, onSprite rows ox (oy + 1) x y →
        fbCell (drawCols ox oy row 8 acc).1 x y = fbCell acc.1 x y := by
      intro x y h
      have : y ≠ oy := by have := h.2.2.1; omega
      rw [drawCols_cell, decide_eq_false (fun k => this k.2.2.1), Bool.xor_false]
    rw [drawRows, ih, hrow, drawCols_col]
    constructor
    · rintro ((h | ⟨c, hc, hb, hf⟩) | ⟨x, y, ho, hf⟩)
      · exact .inl h
      · exact .inr ⟨ox + c, oy, (onSprite_cons ..).2 (.inl ⟨rfl, by omega, by omega, by simpa using hb⟩), hf⟩
      · exact .inr ⟨x, y, (onSprite_cons ..).2 (.inr ho), hcell x y ho ▸ hf⟩
    · rintro (h | ⟨x, y, ho, hf⟩)
      · exact .inl (.inl h)
      · rcases (onSprite_cons ..).1 ho with ⟨rfl, h1, h2, hb⟩ | ho
        · exact .inl (.inr ⟨x - ox, by omega, hb, by rwa [show ox + (x - ox) = x by omega]⟩)
        · exact .inr ⟨x, y, ho, (hcell x y ho).trans hf⟩

end Sys2Proof.Machine
end

