-- ==== Sys2Proof/Laws/Ops.lean ====
section
/-! SUPPORT. One lemma per shared operation: skips, key operands, the stack, flags, block loads, timers, the Random port. -/
namespace Sys2Proof.Machine

/-! ### Skips and key operands -/

theorem skipIf_true (s : State) : skipIf true s = .next (s.setPC (s.pc + 2)) := rfl

theorem skipIf_false (s : State) : skipIf false s = .next s := rfl

theorem skipIf_eq (c : Bool) (s : State) : skipIf c s = .next (s.setPC (if c then s.pc + 2 else s.pc)) := by
  cases c <;> rfl

theorem withKey_ok {s : State} {k : Byte} (h : k.toNat < 16) (cont : Bool → Out) :
    withKey s k cont = cont (s.keys[k.toNat]'h) := by simp [withKey, h]

theorem withKey_bad (s : State) {k : Byte} (h : ¬ k.toNat < 16) (cont : Bool → Out) :
    withKey s k cont = .fault (.keyIndexOutOfRange k) := by simp [withKey, h]

/-! ### Call stack (R33) -/

theorem pop_nil {s : State} (h : s.stack = []) : pop s = .error .stackUnderflow := by simp [pop, h]

theorem pop_cons {s : State} {w : Word} {rest : List Word} (h : s.stack = w :: rest) :
    pop s = .ok (w, s.setStack rest) := by simp [pop, h]

theorem push_full {s : State} (h : s.params.stackLimit = some s.stack.length) (w : Word) :
    push s w = .error (.stackOverflow s.stack.length) := by simp [push, h]

theorem push_ok {s : State} (h : s.params.stackLimit ≠ some s.stack.length) (w : Word) :
    push s w = .ok (s.setStack (w :: s.stack)) := by simp [push, h]

/-! ### Flags (R29, R113) -/

theorem setVF_eq (s : State) (c : Bool) : s.setVF c = s.setV vf (flagByte c) := rfl

theorem resultThenFlag_eq (s : State) (x : Nibble) (r : Byte) (c : Bool) :
    resultThenFlag s x r c = .next ((s.setV x r).setVF c) := rfl

/-- VF ends holding the flag, also where it is the destination. -/
theorem getV_result_flag (s : State) (x q : Nibble) (r : Byte) (c : Bool) :
    ((s.setV x r).setVF c).getV q = if q = 15 then flagByte c else if q = x then r else s.getV q := by
  rw [setVF_eq, getV_setV, getV_setV]
  rfl

theorem flagByte_toNat (c : Bool) : (flagByte c).toNat = c.toNat := by cases c <;> rfl

/-! ### Block loads (R121) -/

theorem ofNat_toNat_nibble (r : Nibble) : BitVec.ofNat 4 r.toNat = r := by simp

/-- A block load changes nothing but general registers. -/
theorem loadRegs_eq (bs : List Byte) : ∀ (s : State) (k : Nat), ∃ v, s.loadRegs k bs = { s with v := v } := by
  induction bs with
  | nil => intro s k; exact ⟨s.v, rfl⟩
  | cons b bs ih =>
    intro s k
    unfold State.loadRegs
    split_ifs
    · obtain ⟨v, h⟩ := ih (s.setV (BitVec.ofNat 4 k) b) (k + 1)
      exact ⟨v, h⟩
    · exact ih s (k + 1)

theorem getV_loadRegs (bs : List Byte) : ∀ (s : State) (k : Nat) (r : Nibble),
    (s.loadRegs k bs).getV r = if k ≤ r.toNat then (bs[r.toNat - k]?).getD (s.getV r) else s.getV r := by
  induction bs with
  | nil => intro s k r; simp [State.loadRegs]
  | cons b bs ih =>
    intro s k r
    have hr : r.toNat < 16 := r.isLt
    unfold State.loadRegs
    rw [ih]
    by_cases hk : k < 16
    · have hkn : (BitVec.ofNat 4 k).toNat = k := by simp [Nat.mod_eq_of_lt hk]
      rcases Nat.lt_trichotomy r.toNat k with h | h | h
      · have h1 : r ≠ BitVec.ofNat 4 k := fun e => by rw [e, hkn] at h; omega
        simp [hk, show ¬ k + 1 ≤ r.toNat by omega, show ¬ k ≤ r.toNat by omega, getV_setV, h1]
      · have h1 : r = BitVec.ofNat 4 k := by rw [← h]; simp
        simp [h1, hk, Nat.mod_eq_of_lt hk]
      · have h1 : r ≠ BitVec.ofNat 4 k := fun e => by rw [e, hkn] at h; omega
        simp [hk, show k + 1 ≤ r.toNat by omega, show k ≤ r.toNat by omega, getV_setV, h1,
          show r.toNat - k = (r.toNat - (k + 1)) + 1 by omega]
    · simp [hk, show ¬ k + 1 ≤ r.toNat by omega, show ¬ k ≤ r.toNat by omega]

/-! ### Timers and the Random port -/

theorem countDown_toNat (b : Byte) : (countDown b).toNat = b.toNat - 1 := by
  unfold countDown
  split_ifs with h
  · simp [h]
  · have h1 : (b.toNat : Nat) ≠ 0 := fun e => h (BitVec.eq_of_toNat_eq e)
    have := b.isLt
    rw [BitVec.toNat_sub]
    have h2 : (1 : Byte).toNat = 1 := rfl
    omega

@[simp] theorem timerDecrement_dt (s : State) : (timerDecrement s).dt = countDown s.dt := rfl

@[simp] theorem timerDecrement_st (s : State) : (timerDecrement s).st = countDown s.st := rfl

theorem timerDecrement_eq (s : State) : timerDecrement s = { s with dt := countDown s.dt, st := countDown s.st } := rfl

/-- What the end of a step does: the timers, and the next draw. -/
theorem endStep_eq (s : State) : endStep s =
    { s with
      dt := if s.params.timerCoupling = .perStep then countDown s.dt else s.dt
      st := if s.params.timerCoupling = .perStep then countDown s.st else s.st
      randIn := s.randIn.tail
      draws := s.draws + 1 } := by
  unfold endStep timerPhase
  cases h : s.params.timerCoupling <;> rfl

theorem rand8_cons {s : State} {b : Byte} {rest : List Byte} (h : s.randIn = b :: rest) : s.rand8 = b := by
  simp [State.rand8, h]

theorem rand8_nil {s : State} (h : s.randIn = []) : s.rand8 = Config.freeRand8 s.draws := by
  simp [State.rand8, h]

@[simp] theorem rand8_setV (s : State) (x : Nibble) (b : Byte) : (s.setV x b).rand8 = s.rand8 := rfl

@[simp] theorem rand8_setPC (s : State) (w : Word) : (s.setPC w).rand8 = s.rand8 := rfl

end Sys2Proof.Machine
end

