-- ==== Sys2Proof/Laws/PerInstr.lean ====
section
/-! SUPPORT. Per instruction: its encoding lies in its own row of the opcode map (30_encoding.md R66), one lemma per
constructor. -/
namespace Sys2Proof.Laws.EncodeRow

/-- The word of the instruction matches the row of the opcode map that carries its mnemonic. -/
def Statement (i : Instr) : Prop := ∃ r ∈ opcodeMap, r.mnemonic = i.mnemonic ∧ r.Matches (encode i)

theorem cls : Statement (.cls) :=
  ⟨⟨0xFFFF, 0x00E0, "CLS"⟩, by decide, rfl, mask_FFFF _⟩

theorem ret : Statement (.ret) :=
  ⟨⟨0xFFFF, 0x00EE, "RET"⟩, by decide, rfl, mask_FFFF _⟩

theorem jp (nnn : Addr12) : Statement (.jp nnn) :=
  ⟨⟨0xF000, 0x1000, "JP"⟩, by decide, rfl, (mask_F000 _ 0x1).2 (split_nnn 0x1 nnn).1⟩

theorem call (nnn : Addr12) : Statement (.call nnn) :=
  ⟨⟨0xF000, 0x2000, "CALL"⟩, by decide, rfl, (mask_F000 _ 0x2).2 (split_nnn 0x2 nnn).1⟩

theorem seImm (x : Nibble) (kk : Byte) : Statement (.seImm x kk) :=
  ⟨⟨0xF000, 0x3000, "SE_IMM"⟩, by decide, rfl, (mask_F000 _ 0x3).2 (split_xkk 0x3 x kk).1⟩

theorem sneImm (x : Nibble) (kk : Byte) : Statement (.sneImm x kk) :=
  ⟨⟨0xF000, 0x4000, "SNE_IMM"⟩, by decide, rfl, (mask_F000 _ 0x4).2 (split_xkk 0x4 x kk).1⟩

theorem seReg (x y : Nibble) : Statement (.seReg x y) :=
  ⟨⟨0xF00F, 0x5000, "SE_REG"⟩, by decide, rfl, (mask_F00F _ 0x5 0x0).2 ⟨(split_xyn 0x5 x y 0x0).1, (split_xyn 0x5 x y 0x0).2.2.2⟩⟩

theorem ldImm (x : Nibble) (kk : Byte) : Statement (.ldImm x kk) :=
  ⟨⟨0xF000, 0x6000, "LD_IMM"⟩, by decide, rfl, (mask_F000 _ 0x6).2 (split_xkk 0x6 x kk).1⟩

theorem addImm (x : Nibble) (kk : Byte) : Statement (.addImm x kk) :=
  ⟨⟨0xF000, 0x7000, "ADD_IMM"⟩, by decide, rfl, (mask_F000 _ 0x7).2 (split_xkk 0x7 x kk).1⟩

theorem ldReg (x y : Nibble) : Statement (.ldReg x y) :=
  ⟨⟨0xF00F, 0x8000, "LD_REG"⟩, by decide, rfl, (mask_F00F _ 0x8 0x0).2 ⟨(split_xyn 0x8 x y 0x0).1, (split_xyn 0x8 x y 0x0).2.2.2⟩⟩

theorem orReg (x y : Nibble) : Statement (.orReg x y) :=
  ⟨⟨0xF00F, 0x8001, "OR"⟩, by decide, rfl, (mask_F00F _ 0x8 0x1).2 ⟨(split_xyn 0x8 x y 0x1).1, (split_xyn 0x8 x y 0x1).2.2.2⟩⟩

theorem andReg (x y : Nibble) : Statement (.andReg x y) :=
  ⟨⟨0xF00F, 0x8002, "AND"⟩, by decide, rfl, (mask_F00F _ 0x8 0x2).2 ⟨(split_xyn 0x8 x y 0x2).1, (split_xyn 0x8 x y 0x2).2.2.2⟩⟩

theorem xorReg (x y : Nibble) : Statement (.xorReg x y) :=
  ⟨⟨0xF00F, 0x8003, "XOR"⟩, by decide, rfl, (mask_F00F _ 0x8 0x3).2 ⟨(split_xyn 0x8 x y 0x3).1, (split_xyn 0x8 x y 0x3).2.2.2⟩⟩

theorem addReg (x y : Nibble) : Statement (.addReg x y) :=
  ⟨⟨0xF00F, 0x8004, "ADD_REG"⟩, by decide, rfl, (mask_F00F _ 0x8 0x4).2 ⟨(split_xyn 0x8 x y 0x4).1, (split_xyn 0x8 x y 0x4).2.2.2⟩⟩

theorem sub (x y : Nibble) : Statement (.sub x y) :=
  ⟨⟨0xF00F, 0x8005, "SUB"⟩, by decide, rfl, (mask_F00F _ 0x8 0x5).2 ⟨(split_xyn 0x8 x y 0x5).1, (split_xyn 0x8 x y 0x5).2.2.2⟩⟩

theorem shr (x y : Nibble) : Statement (.shr x y) :=
  ⟨⟨0xF00F, 0x8006, "SHR"⟩, by decide, rfl, (mask_F00F _ 0x8 0x6).2 ⟨(split_xyn 0x8 x y 0x6).1, (split_xyn 0x8 x y 0x6).2.2.2⟩⟩

theorem subn (x y : Nibble) : Statement (.subn x y) :=
  ⟨⟨0xF00F, 0x8007, "SUBN"⟩, by decide, rfl, (mask_F00F _ 0x8 0x7).2 ⟨(split_xyn 0x8 x y 0x7).1, (split_xyn 0x8 x y 0x7).2.2.2⟩⟩

theorem shl (x y : Nibble) : Statement (.shl x y) :=
  ⟨⟨0xF00F, 0x800E, "SHL"⟩, by decide, rfl, (mask_F00F _ 0x8 0xE).2 ⟨(split_xyn 0x8 x y 0xE).1, (split_xyn 0x8 x y 0xE).2.2.2⟩⟩

theorem sneReg (x y : Nibble) : Statement (.sneReg x y) :=
  ⟨⟨0xF00F, 0x9000, "SNE_REG"⟩, by decide, rfl, (mask_F00F _ 0x9 0x0).2 ⟨(split_xyn 0x9 x y 0x0).1, (split_xyn 0x9 x y 0x0).2.2.2⟩⟩

theorem ldI (nnn : Addr12) : Statement (.ldI nnn) :=
  ⟨⟨0xF000, 0xA000, "LD_I"⟩, by decide, rfl, (mask_F000 _ 0xA).2 (split_nnn 0xA nnn).1⟩

theorem jpV0 (nnn : Addr12) : Statement (.jpV0 nnn) :=
  ⟨⟨0xF000, 0xB000, "JP_V0"⟩, by decide, rfl, (mask_F000 _ 0xB).2 (split_nnn 0xB nnn).1⟩

theorem rnd (x : Nibble) (kk : Byte) : Statement (.rnd x kk) :=
  ⟨⟨0xF000, 0xC000, "RND"⟩, by decide, rfl, (mask_F000 _ 0xC).2 (split_xkk 0xC x kk).1⟩

theorem drw (x y n : Nibble) : Statement (.drw x y n) :=
  ⟨⟨0xF000, 0xD000, "DRW"⟩, by decide, rfl, (mask_F000 _ 0xD).2 (split_xyn 0xD x y n).1⟩

theorem skp (x : Nibble) : Statement (.skp x) :=
  ⟨⟨0xF0FF, 0xE09E, "SKP"⟩, by decide, rfl, (mask_F0FF _ 0xE 0x9 0xE).2 ⟨(split_xkk 0xE x 0x9E).1, (split_xkk 0xE x 0x9E).2.2⟩⟩

theorem sknp (x : Nibble) : Statement (.sknp x) :=
  ⟨⟨0xF0FF, 0xE0A1, "SKNP"⟩, by decide, rfl, (mask_F0FF _ 0xE 0xA 0x1).2 ⟨(split_xkk 0xE x 0xA1).1, (split_xkk 0xE x 0xA1).2.2⟩⟩

theorem ldVxDt (x : Nibble) : Statement (.ldVxDt x) :=
  ⟨⟨0xF0FF, 0xF007, "LD_VX_DT"⟩, by decide, rfl, (mask_F0FF _ 0xF 0x0 0x7).2 ⟨(split_xkk 0xF x 0x07).1, (split_xkk 0xF x 0x07).2.2⟩⟩

theorem ldVxK (x : Nibble) : Statement (.ldVxK x) :=
  ⟨⟨0xF0FF, 0xF00A, "LD_VX_K"⟩, by decide, rfl, (mask_F0FF _ 0xF 0x0 0xA).2 ⟨(split_xkk 0xF x 0x0A).1, (split_xkk 0xF x 0x0A).2.2⟩⟩

theorem ldDtVx (x : Nibble) : Statement (.ldDtVx x) :=
  ⟨⟨0xF0FF, 0xF015, "LD_DT_VX"⟩, by decide, rfl, (mask_F0FF _ 0xF 0x1 0x5).2 ⟨(split_xkk 0xF x 0x15).1, (split_xkk 0xF x 0x15).2.2⟩⟩

theorem ldStVx (x : Nibble) : Statement (.ldStVx x) :=
  ⟨⟨0xF0FF, 0xF018, "LD_ST_VX"⟩, by decide, rfl, (mask_F0FF _ 0xF 0x1 0x8).2 ⟨(split_xkk 0xF x 0x18).1, (split_xkk 0xF x 0x18).2.2⟩⟩

theorem addIVx (x : Nibble) : Statement (.addIVx x) :=
  ⟨⟨0xF0FF, 0xF01E, "ADD_I_VX"⟩, by decide, rfl, (mask_F0FF _ 0xF 0x1 0xE).2 ⟨(split_xkk 0xF x 0x1E).1, (split_xkk 0xF x 0x1E).2.2⟩⟩

theorem ldFVx (x : Nibble) : Statement (.ldFVx x) :=
  ⟨⟨0xF0FF, 0xF029, "LD_F_VX"⟩, by decide, rfl, (mask_F0FF _ 0xF 0x2 0x9).2 ⟨(split_xkk 0xF x 0x29).1, (split_xkk 0xF x 0x29).2.2⟩⟩

theorem ldBVx (x : Nibble) : Statement (.ldBVx x) :=
  ⟨⟨0xF0FF, 0xF033, "LD_B_VX"⟩, by decide, rfl, (mask_F0FF _ 0xF 0x3 0x3).2 ⟨(split_xkk 0xF x 0x33).1, (split_xkk 0xF x 0x33).2.2⟩⟩

theorem ldMemVx (x : Nibble) : Statement (.ldMemVx x) :=
  ⟨⟨0xF0FF, 0xF055, "LD_MEM_VX"⟩, by decide, rfl, (mask_F0FF _ 0xF 0x5 0x5).2 ⟨(split_xkk 0xF x 0x55).1, (split_xkk 0xF x 0x55).2.2⟩⟩

theorem ldVxMem (x : Nibble) : Statement (.ldVxMem x) :=
  ⟨⟨0xF0FF, 0xF065, "LD_VX_MEM"⟩, by decide, rfl, (mask_F0FF _ 0xF 0x6 0x5).2 ⟨(split_xkk 0xF x 0x65).1, (split_xkk 0xF x 0x65).2.2⟩⟩

end Sys2Proof.Laws.EncodeRow
end

