-- ==== Sys2Proof/Laws/Step.lean ====
section
/-! SUPPORT. What `exec` can change, instruction by instruction, when it can fault, and what one step can do: the inversion
lemmas the statements about steps rest on. -/
namespace Sys2Proof.Machine

/-! ### The meanings -/

/-- What the instruction may change, from the state it runs in (the write columns of 10_state.md section 1). -/
def changesOf (s : State) : Instr → Changes
  | .cls => { fb := True }
  | .ret | .call _ => { pc := True, stack := True }
  | .jp _ | .jpV0 _ | .seImm _ _ | .sneImm _ _ | .seReg _ _ | .sneReg _ _ | .skp _ | .sknp _ => { pc := True }
  | .ldImm x _ | .addImm x _ | .ldReg x _ | .orReg x _ | .andReg x _ | .xorReg x _ | .rnd x _ | .ldVxDt x =>
    { v := (· = x) }
  | .addReg x _ | .sub x _ | .shr x _ | .subn x _ | .shl x _ => { v := fun r => r = x ∨ r = 15 }
  | .ldI _ | .addIVx _ | .ldFVx _ => { i := True }
  | .drw _ _ _ => { fb := True, v := (· = 15) }
  | .ldVxK x => { pc := True, v := (· = x) }
  | .ldDtVx _ => { dt := True }
  | .ldStVx _ => { st := True }
  | .ldBVx _ => { mem := fun a => s.i.toNat ≤ a ∧ a < s.i.toNat + 3 }
  | .ldMemVx x => { mem := fun a => s.i.toNat ≤ a ∧ a < s.i.toNat + (x.toNat + 1) }
  | .ldVxMem x => { v := (· ≤ x) }

theorem frame_refl (c : Changes) (s : State) : Frame c s s := by constructor <;> intros <;> rfl

theorem frame_setPC {c : Changes} (h : c.pc) (s : State) (w : Word) : Frame c s (s.setPC w) := by
  constructor <;> intros <;> first | rfl | contradiction

theorem frame_setI {c : Changes} (h : c.i) (s : State) (w : Word) : Frame c s (s.setI w) := by
  constructor <;> intros <;> first | rfl | contradiction

theorem frame_setDT {c : Changes} (h : c.dt) (s : State) (b : Byte) : Frame c s (s.setDT b) := by
  constructor <;> intros <;> first | rfl | contradiction

theorem frame_setST {c : Changes} (h : c.st) (s : State) (b : Byte) : Frame c s (s.setST b) := by
  constructor <;> intros <;> first | rfl | contradiction

theorem frame_setFB {c : Changes} (h : c.fb) (s : State) (f : FrameBuffer) : Frame c s (s.setFB f) := by
  constructor <;> intros <;> first | rfl | contradiction

theorem frame_setStack {c : Changes} (h : c.stack) (s : State) (l : List Word) : Frame c s (s.setStack l) := by
  constructor <;> intros <;> first | rfl | contradiction

theorem frame_setV {c : Changes} {x : Nibble} (h : c.v x) (s : State) (b : Byte) : Frame c s (s.setV x b) := by
  constructor <;> intros <;> try rfl
  rename_i r hr
  exact getV_setV_other s (fun e => hr (by rw [e]; exact h)) b

theorem frame_trans {c : Changes} {s t u : State} (h : Frame c s t) (k : Frame c t u) : Frame c s u where
  v r hr := (k.v r hr).trans (h.v r hr)
  i hc := (k.i hc).trans (h.i hc)
  pc hc := (k.pc hc).trans (h.pc hc)
  stack hc := (k.stack hc).trans (h.stack hc)
  dt hc := (k.dt hc).trans (h.dt hc)
  st hc := (k.st hc).trans (h.st hc)
  fb hc x y := (k.fb hc x y).trans (h.fb hc x y)
  mem a ha := (k.mem a ha).trans (h.mem a ha)
  keys := k.keys.trans h.keys
  keyAny := k.keyAny.trans h.keyAny
  keyLast := k.keyLast.trans h.keyLast
  status := k.status.trans h.status
  params := k.params.trans h.params
  randIn := k.randIn.trans h.randIn
  draws := k.draws.trans h.draws

theorem frame_result_flag {c : Changes} {x : Nibble} (h : c.v x) (hf : c.v 15) (s : State) (r : Byte) (f : Bool) :
    Frame c s ((s.setV x r).setVF f) :=
  frame_trans (frame_setV h s r) (frame_setV hf _ _)

theorem frame_storeBytes {c : Changes} {a : Nat} {bs : List Byte} (h : ∀ k, a ≤ k → k < a + bs.length → c.mem k)
    (s : State) : Frame c s (s.storeBytes a bs) := by
  obtain ⟨m, hm⟩ := storeBytes_eq bs s a
  have hmem : ∀ k, ¬ c.mem k → (s.storeBytes a bs).byteAt k = s.byteAt k :=
    fun k hk => byteAt_storeBytes_other bs s (fun hr => hk (h k hr.1 hr.2))
  rw [hm] at hmem ⊢
  constructor <;> intros <;> first | rfl | (apply hmem; assumption)

theorem frame_loadRegs {c : Changes} {k : Nat} {bs : List Byte}
    (h : ∀ r : Nibble, k ≤ r.toNat → r.toNat < k + bs.length → c.v r) (s : State) : Frame c s (s.loadRegs k bs) := by
  have hv : ∀ r, ¬ c.v r → (s.loadRegs k bs).getV r = s.getV r := by
    intro r hr
    rw [getV_loadRegs]
    split_ifs with hk
    · have : ¬ r.toNat < k + bs.length := fun hl => hr (h r hk hl)
      rw [List.getElem?_eq_none (by omega)]
      rfl
    · rfl
  obtain ⟨v, e⟩ := loadRegs_eq bs s k
  rw [e] at hv ⊢
  constructor <;> intros <;> first | rfl | (apply hv; assumption)

/-- When `exec` answers a next state, nothing but `changesOf` has changed. -/
theorem exec_frame {i : Instr} {s t : State} (h : exec i s = .next t) : Frame (changesOf s i) s t := by
  cases i with
  | cls => cases h; exact frame_setFB trivial s _
  | ret =>
    change execRet s = _ at h; unfold execRet at h
    split at h
    · cases h
    · rename_i w u hp
      cases h
      unfold pop at hp
      split at hp <;> cases hp
      exact frame_trans (frame_setStack trivial s _) (frame_setPC trivial _ _)
  | jp nnn => cases h; exact frame_setPC trivial s _
  | call nnn =>
    change execCall nnn s = _ at h; unfold execCall at h
    split at h
    · cases h
    · rename_i u hp
      cases h
      unfold push at hp
      split at hp <;> cases hp
      exact frame_trans (frame_setStack trivial s _) (frame_setPC trivial _ _)
  | seImm x kk => change execSeImm x kk s = _ at h; unfold execSeImm at h; rw [skipIf_eq] at h; cases h; exact frame_setPC trivial s _
  | sneImm x kk => change execSneImm x kk s = _ at h; unfold execSneImm at h; rw [skipIf_eq] at h; cases h; exact frame_setPC trivial s _
  | seReg x y => change execSeReg x y s = _ at h; unfold execSeReg at h; rw [skipIf_eq] at h; cases h; exact frame_setPC trivial s _
  | sneReg x y => change execSneReg x y s = _ at h; unfold execSneReg at h; rw [skipIf_eq] at h; cases h; exact frame_setPC trivial s _
  | ldImm x kk => cases h; exact frame_setV rfl s _
  | addImm x kk => cases h; exact frame_setV rfl s _
  | ldReg x y => cases h; exact frame_setV rfl s _
  | orReg x y => cases h; exact frame_setV rfl s _
  | andReg x y => cases h; exact frame_setV rfl s _
  | xorReg x y => cases h; exact frame_setV rfl s _
  | rnd x kk => cases h; exact frame_setV rfl s _
  | addReg x y => cases h; exact frame_result_flag (Or.inl rfl) (Or.inr rfl) s _ _
  | sub x y => cases h; exact frame_result_flag (Or.inl rfl) (Or.inr rfl) s _ _
  | shr x y => cases h; exact frame_result_flag (Or.inl rfl) (Or.inr rfl) s _ _
  | subn x y => cases h; exact frame_result_flag (Or.inl rfl) (Or.inr rfl) s _ _
  | shl x y => cases h; exact frame_result_flag (Or.inl rfl) (Or.inr rfl) s _ _
  | ldI nnn => cases h; exact frame_setI trivial s _
  | jpV0 nnn => cases h; exact frame_setPC trivial s _
  | drw x y n =>
    change execDrw x y n s = _ at h; unfold execDrw at h
    rcases withRange_cases s.i.toNat n.toNat _ with ⟨-, e⟩ | ⟨-, -, e⟩ <;> rw [e] at h <;> cases h
    exact frame_trans (frame_setFB trivial s _) (frame_setV (x := vf) rfl _ _)
  | skp x =>
    change execSkp x s = _ at h; unfold execSkp at h
    by_cases hk : (s.getV x).toNat < 16
    · rw [withKey_ok hk, skipIf_eq] at h; cases h; exact frame_setPC trivial s _
    · rw [withKey_bad s hk] at h; cases h
  | sknp x =>
    change execSknp x s = _ at h; unfold execSknp at h
    by_cases hk : (s.getV x).toNat < 16
    · rw [withKey_ok hk, skipIf_eq] at h; cases h; exact frame_setPC trivial s _
    · rw [withKey_bad s hk] at h; cases h
  | ldVxDt x => cases h; exact frame_setV rfl s _
  | ldVxK x =>
    cases h
    split_ifs
    · exact frame_setV rfl s _
    · exact frame_setPC trivial s _
  | ldDtVx x => cases h; exact frame_setDT trivial s _
  | ldStVx x => cases h; exact frame_setST trivial s _
  | addIVx x => cases h; exact frame_setI trivial s _
  | ldFVx x => cases h; exact frame_setI trivial s _
  | ldBVx x =>
    change execLdBVx x s = _ at h; unfold execLdBVx at h
    rcases withRange_cases s.i.toNat 3 _ with ⟨-, e⟩ | ⟨-, -, e⟩ <;> rw [e] at h <;> cases h
    exact frame_storeBytes (fun k h1 h2 => And.intro h1 h2) s
  | ldMemVx x =>
    change execLdMemVx x s = _ at h; unfold execLdMemVx at h
    rcases withRange_cases s.i.toNat (blockLen x) _ with ⟨-, e⟩ | ⟨-, -, e⟩ <;> rw [e] at h <;> cases h
    exact frame_storeBytes (fun k h1 h2 => And.intro h1 (by rwa [regsUpTo_length] at h2)) s
  | ldVxMem x =>
    change execLdVxMem x s = _ at h; unfold execLdVxMem at h
    rcases withRange_cases s.i.toNat (blockLen x) _ with ⟨-, e⟩ | ⟨-, -, e⟩ <;> rw [e] at h <;> cases h
    refine frame_loadRegs (fun r _ h2 => ?_) s
    rw [loadBytes_length] at h2
    exact BitVec.le_def.2 (by unfold blockLen at h2; omega)

/-- Why the instruction faults in `s`, if it does (R129, R136). -/
def ownFault (s : State) : Instr → Option Fault
  | .ret => if s.stack = [] then some .stackUnderflow else none
  | .call _ => if s.params.stackLimit = some s.stack.length then some (.stackOverflow s.stack.length) else none
  | .drw _ _ n => rangeFault s.i.toNat n.toNat
  | .ldBVx _ => rangeFault s.i.toNat 3
  | .ldMemVx x | .ldVxMem x => rangeFault s.i.toNat (x.toNat + 1)
  | .skp x | .sknp x => if (s.getV x).toNat < 16 then none else some (.keyIndexOutOfRange (s.getV x))
  | _ => none

/-- `exec` answers the instruction's own fault where there is one, and a next state otherwise; it refuses nothing. -/
theorem exec_cases (i : Instr) (s : State) :
    (∃ f, ownFault s i = some f ∧ exec i s = .fault f) ∨ (ownFault s i = none ∧ ∃ t, exec i s = .next t) := by
  have range : ∀ base len k, (∃ u : State, k = .next u) →
      (∃ f, rangeFault base len = some f ∧ withRange base len k = .fault f) ∨
        (rangeFault base len = none ∧ ∃ t, withRange base len k = .next t) := by
    rintro base len k ⟨u, rfl⟩
    unfold withRange
    cases rangeFault base len with
    | none => exact .inr ⟨rfl, u, rfl⟩
    | some f => exact .inl ⟨f, rfl, rfl⟩
  cases i with
  | ret =>
    cases h : s.stack with
    | nil => exact .inl ⟨.stackUnderflow, by simp [ownFault, h], by simp [exec, execRet, pop_nil h]⟩
    | cons w rest =>
      exact .inr ⟨by simp [ownFault, h], (s.setStack rest).setPC w, by simp only [exec, execRet, pop_cons h]⟩
  | call nnn =>
    by_cases h : s.params.stackLimit = some s.stack.length
    · exact .inl ⟨.stackOverflow s.stack.length, by simp [ownFault, h], by simp [exec, execCall, push_full h]⟩
    · exact .inr ⟨by simp [ownFault, h], (s.setStack (s.pc :: s.stack)).setPC (immAddr nnn),
        by simp only [exec, execCall, push_ok h]⟩
  | skp x =>
    by_cases h : (s.getV x).toNat < 16
    · refine .inr ⟨by simp [ownFault, h], ?_⟩
      change ∃ t, execSkp x s = .next t
      rw [execSkp, withKey_ok h, skipIf_eq]
      exact ⟨_, rfl⟩
    · exact .inl ⟨.keyIndexOutOfRange (s.getV x), by simp [ownFault, h], (show execSkp x s = _ from withKey_bad s h _)⟩
  | sknp x =>
    by_cases h : (s.getV x).toNat < 16
    · refine .inr ⟨by simp [ownFault, h], ?_⟩
      change ∃ t, execSknp x s = .next t
      rw [execSknp, withKey_ok h, skipIf_eq]
      exact ⟨_, rfl⟩
    · exact .inl ⟨.keyIndexOutOfRange (s.getV x), by simp [ownFault, h], (show execSknp x s = _ from withKey_bad s h _)⟩
  | drw x y n => exact range _ _ _ ⟨_, rfl⟩
  | ldBVx x => exact range _ _ _ ⟨_, rfl⟩
  | ldMemVx x => exact range _ _ _ ⟨_, rfl⟩
  | ldVxMem x => exact range _ _ _ ⟨_, rfl⟩
  | cls | jp | seImm | sneImm | seReg | ldImm | addImm | ldReg | orReg | andReg | xorReg | addReg | sub | shr | subn
  | shl | sneReg | ldI | jpV0 | rnd | ldVxDt | ldVxK | ldDtVx | ldStVx | addIVx | ldFVx =>
    exact .inr ⟨rfl, _, rfl⟩

/-! ### Rows of the opcode map as conditions on the fields -/

theorem encodedAs_F000 {f : Nibble} {build : Fields → Instr}
    (h : ∀ d : Fields, d.family = f → classifyFields d = some (build d)) :
    EncodedAs 0xF000 (ofNibbles f 0 0 0) build :=
  fun w hw => h _ ((mask_F000 w f).1 hw)

theorem encodedAs_F00F {f n : Nibble} {build : Fields → Instr}
    (h : ∀ d : Fields, d.family = f → d.n = n → classifyFields d = some (build d)) :
    EncodedAs 0xF00F (ofNibbles f 0 0 n) build :=
  fun w hw => h _ ((mask_F00F w f n).1 hw).1 ((mask_F00F w f n).1 hw).2

theorem encodedAs_F0FF {f y n : Nibble} {build : Fields → Instr}
    (h : ∀ d : Fields, d.family = f → d.kk = y ++ n → classifyFields d = some (build d)) :
    EncodedAs 0xF0FF (ofNibbles f 0 y n) build :=
  fun w hw => h _ ((mask_F0FF w f y n).1 hw).1 ((mask_F0FF w f y n).1 hw).2

/-! ### The fetch -/

theorem fetch_eq_ok_iff (s : State) (w : Word) : fetch s = .ok w ↔ Fetches s w := by
  unfold fetch Fetches memRead
  have hm : memSize = 0x1000 := rfl
  by_cases he : s.pc.toNat % 2 = 0
  · by_cases h1 : s.pc.toNat + 1 < memSize
    · have h0 : s.pc.toNat < memSize := by omega
      simp only [he, h0, h1, if_true, ← joinBytes_eq, true_and]
      rw [hm] at h1
      simp only [h1, true_and, Except.ok.injEq, eq_comm]
    · have : ¬ s.pc.toNat + 1 < 0x1000 := by rwa [hm] at h1
      by_cases h0 : s.pc.toNat < memSize <;> simp [he, h0, h1, this]
  · simp [he]

theorem fetch_odd {s : State} (h : s.pc.toNat % 2 = 1) : fetch s = .error (.pcMisaligned s.pc) := by
  simp [fetch, h]

theorem fetch_outside {s : State} (he : s.pc.toNat % 2 = 0) (h : 0x1000 ≤ s.pc.toNat) :
    fetch s = .error (.memoryOutOfRange s.pc.toNat) := by
  have : ¬ s.pc.toNat < memSize := by unfold memSize; omega
  simp [fetch, he, memRead, this]

/-- The fetch fails at an odd or out-of-range `PC`, and reads a word otherwise. -/
theorem fetch_cases (s : State) :
    (s.pc.toNat % 2 = 1 ∧ fetch s = .error (.pcMisaligned s.pc)) ∨
    (s.pc.toNat % 2 = 0 ∧ 0x1000 ≤ s.pc.toNat ∧ fetch s = .error (.memoryOutOfRange s.pc.toNat)) ∨
    ∃ w, Fetches s w ∧ fetch s = .ok w := by
  rcases Nat.mod_two_eq_zero_or_one s.pc.toNat with he | ho
  · by_cases h : 0x1000 ≤ s.pc.toNat
    · exact .inr (.inl ⟨he, h, fetch_outside he h⟩)
    · have hf : Fetches s _ := ⟨he, by omega, rfl⟩
      exact .inr (.inr ⟨_, hf, (fetch_eq_ok_iff s _).2 hf⟩)
  · exact .inl ⟨ho, fetch_odd ho⟩

/-- At most one word is fetched. -/
theorem fetches_unique {s : State} {w w' : Word} (h : Fetches s w) (h' : Fetches s w') : w = w' :=
  h.2.2.trans h'.2.2.symm

theorem runsInstr_unique {s : State} {i j : Instr} (h : RunsInstr s i) (k : RunsInstr s j) : i = j := by
  obtain ⟨-, w, hf, hd⟩ := h
  obtain ⟨-, w', hf', hd'⟩ := k
  rw [fetches_unique hf hf', hd'] at hd
  exact (Option.some.inj hd).symm

/-! ### The step -/

/-- Everything a step of a running block can do: halt at the fetch, at the decoder or at the instruction, or run the
instruction and end the step. -/
theorem runStep_cases (s : State) :
    (∃ f, fetch s = .error f ∧ runStep s = .next (haltStep s f none)) ∨
    (∃ w, Fetches s w ∧ decodeWord w = none ∧ runStep s = .next (haltStep s (.decodeError w) (some w))) ∨
    (∃ w i f, Fetches s w ∧ decodeWord w = some i ∧ ownFault (advance s) i = some f ∧
      exec i (advance s) = .fault f ∧ runStep s = .next (haltStep s f (some w))) ∨
    ∃ w i t, Fetches s w ∧ decodeWord w = some i ∧ ownFault (advance s) i = none ∧ exec i (advance s) = .next t ∧
      runStep s = .next (endStep t, resultOf i s) := by
  unfold runStep
  cases hf : fetch s with
  | error f => exact .inl ⟨f, rfl, rfl⟩
  | ok w =>
    have hw := (fetch_eq_ok_iff s w).1 hf
    cases hd : decodeWord w with
    | none => exact .inr (.inl ⟨w, hw, hd, by simp [hd]⟩)
    | some i =>
      rcases exec_cases i (advance s) with ⟨f, ho, he⟩ | ⟨ho, t, he⟩
      · exact .inr (.inr (.inl ⟨w, i, f, hw, hd, ho, he, by simp [hd, he]⟩))
      · exact .inr (.inr (.inr ⟨w, i, t, hw, hd, ho, he, by simp [hd, he]⟩))

theorem step_running {s : State} (h : s.status = .running) {r : State × StepResult} (hr : runStep s = .next r) :
    step s = .next r.1 := by
  simp [step, h, hr]

theorem stepResult_running {s : State} (h : s.status = .running) {r : State × StepResult}
    (hr : runStep s = .next r) : stepResult s = some r.2 := by
  simp [stepResult, h, hr]

theorem step_halted {s : State} {f : FaultRecord} (h : s.status = .halted f) : step s = .fault f.fault := by
  simp [step, h]

/-- A step that answers a next state: the block was running, and it halted (nothing but `STATUS` changed) or ran the fetched
instruction. -/
theorem step_cases {s t : State} (h : step s = .next t) : s.status = .running ∧
    ((∃ f w, t = takeFault s f w) ∨
      ∃ i u, RunsInstr s i ∧ exec i (advance s) = .next u ∧ t = endStep u) := by
  cases hs : s.status with
  | halted f => rw [step_halted hs] at h; cases h
  | running =>
    refine ⟨rfl, ?_⟩
    rcases runStep_cases s with ⟨f, -, e⟩ | ⟨w, -, -, e⟩ | ⟨w, i, f, -, -, -, -, e⟩ | ⟨w, i, u, hf, hd, -, he, e⟩ <;>
      rw [step_running hs e] at h <;> cases h
    · exact .inl ⟨_, _, rfl⟩
    · exact .inl ⟨_, _, rfl⟩
    · exact .inl ⟨_, _, rfl⟩
    · exact .inr ⟨i, u, ⟨hs, w, hf, hd⟩, he, rfl⟩

end Sys2Proof.Machine
end

