-- ==== Sys2Proof/Tests/Slice0.lean ====
section
/-! SUPPORT. Tests: the WellFormed smoke, the decoder on words written out from 30_encoding.md R66, single steps whose
expected values are the vectors of 95_test_vectors.md (derived there from the rules; each test names its vectors), and for
every obligation with hypotheses a witness that meets them. -/
set_option maxRecDepth 4000
namespace Sys2Proof.Tests
open Sys2Proof Sys2Proof.Machine

/-! ### Helpers -/

/-- The state with the word where the next fetch reads. -/
def put (s : State) (w : Nat) : State := s.withFetchWord 16 w

/-- What `f` reads of the state after one step, with the word placed first. -/
def after {α : Type} (s : State) (w : Nat) (f : State → α) : Option α :=
  match step (put s w) with
  | .next t => some (f t)
  | .fault _ => none
  | .refused _ => none

/-- The state after one step, or the state itself where the step answers none. -/
def nextOf (s : State) : State :=
  match step s with
  | .next t => t
  | .fault _ => s
  | .refused _ => s

/-- Reset with `V[1]`, `V[2]` and VF set, as section 2.5 of the vectors starts. -/
def regs (a b f : Byte) : State := ((State.reset.setV 1 a).setV 2 b).setV 15 f

/-- `V[1]` and VF. -/
def v1vf (s : State) : Byte × Byte := (s.getV 1, s.getV 15)

/-- Reset with `I` set and bytes stored at it. -/
def atI (i : Word) (bs : List Byte) : State := (State.reset.setI i).storeBytes i.toNat bs

/-- Reset with `V[0] = 3` and key 3 down. -/
def key3 : State := setKeyLatch (State.reset.setV 0 3) ((Vector.replicate 16 false).set 3 true) true 3

/-- Reset with `External` timer coupling. -/
def external : State := { State.reset with params := { Params.standard with timerCoupling := .external } }

/-- Reset with a stack limit. -/
def limited (l : Nat) : State := { State.reset with params := { Params.standard with stackLimit := some l } }

/-! ### WellFormed refuses an ill-formed term for each check (R13, R14, R155, R156) -/

theorem test_wf_odd_loadAddr : { Params.standard with loadAddr := 0x201 }.wf = false := by decide

theorem test_wf_font_past_memory : { Params.standard with fontBase := 0xFB1 }.wf = false := by decide

theorem test_wf_font_at_top : { Params.standard with fontBase := 0xFB0 }.wf = true := by decide

theorem test_wf_standard : Params.standard.wf = true := by decide

/-- One byte more than `0x1000 - 0x200` is a load failure; that many bytes are not. -/
theorem test_image_too_long :
    Params.standard.imageFits (List.replicate 0xE01 0) = false ∧ Params.standard.imageFits (List.replicate 0xE00 0) = true := by
  constructor <;> simp only [Params.imageFits, List.length_replicate] <;> decide

theorem test_image_over_font :
    { Params.standard with fontBase := 0x202 }.imageClearOfFont [1, 2, 3] = false ∧
      { Params.standard with fontBase := 0x202 }.imageClearOfFont [1, 2] = true := by decide

theorem test_construct_refuses_bad_parameters :
    construct { Params.standard with loadAddr := 0x201 } [] = none := by rfl

/-! ### The decoder on words written out from R66, every constructor -/

/-- The one-form families 1, 2, 3, 4, 6, 7 and A to D, bit by bit. -/
theorem test_decode_oneForm :
    decodeWord 0b0001101010111100 = some (.jp 0xABC) ∧ decodeWord 0b0010001100000000 = some (.call 0x300) ∧
    decodeWord 0b0011000001000010 = some (.seImm 0 0x42) ∧ decodeWord 0b0100000001000010 = some (.sneImm 0 0x42) ∧
    decodeWord 0b0110000000000101 = some (.ldImm 0 5) ∧ decodeWord 0b0111000000000011 = some (.addImm 0 3) ∧
    decodeWord 0b1010001011110000 = some (.ldI 0x2F0) ∧ decodeWord 0b1011001100000001 = some (.jpV0 0x301) ∧
    decodeWord 0b1100000100001111 = some (.rnd 1 0x0F) ∧ decodeWord 0b1101000100101111 = some (.drw 1 2 15) := by decide

/-- Families 0, 5 and 9, bit by bit. -/
theorem test_decode_fixed :
    decodeWord 0b0000000011100000 = some .cls ∧ decodeWord 0b0000000011101110 = some .ret ∧
    decodeWord 0b0101000100100000 = some (.seReg 1 2) ∧ decodeWord 0b1001000100100000 = some (.sneReg 1 2) := by decide

/-- Family 8, bit by bit. -/
theorem test_decode_family8 :
    decodeWord 0b1000000100100000 = some (.ldReg 1 2) ∧ decodeWord 0b1000000100100001 = some (.orReg 1 2) ∧
    decodeWord 0b1000000100100010 = some (.andReg 1 2) ∧ decodeWord 0b1000000100100011 = some (.xorReg 1 2) ∧
    decodeWord 0b1000000100100100 = some (.addReg 1 2) ∧ decodeWord 0b1000000100100101 = some (.sub 1 2) ∧
    decodeWord 0b1000101010110110 = some (.shr 0xA 0xB) ∧ decodeWord 0b1000000100100111 = some (.subn 1 2) ∧
    decodeWord 0b1000101010111110 = some (.shl 0xA 0xB) := by decide

/-- Families E and F, bit by bit. -/
theorem test_decode_familyEF :
    decodeWord 0b1110000110011110 = some (.skp 1) ∧ decodeWord 0b1110000110100001 = some (.sknp 1) ∧
    decodeWord 0b1111001000000111 = some (.ldVxDt 2) ∧ decodeWord 0b1111001000001010 = some (.ldVxK 2) ∧
    decodeWord 0b1111001000010101 = some (.ldDtVx 2) ∧ decodeWord 0b1111001000011000 = some (.ldStVx 2) ∧
    decodeWord 0b1111001000011110 = some (.addIVx 2) ∧ decodeWord 0b1111001000101001 = some (.ldFVx 2) ∧
    decodeWord 0b1111001000110011 = some (.ldBVx 2) ∧ decodeWord 0b1111001001010101 = some (.ldMemVx 2) ∧
    decodeWord 0b1111001001100101 = some (.ldVxMem 2) := by decide

/-- DEC-2, 3, 6, 8, 10, 11, 12, 13, 16, 18, 19. -/
theorem test_decode_errors :
    [0x0000, 0xFFFF, 0x01E0, 0x0123, 0x5121, 0x9001, 0x8008, 0x800F, 0xE09F, 0xF00B, 0xF075].map decodeWord =
      List.replicate 11 none := by decide

/-- The rejections by name, over bytes: too few, and a word that is none. -/
theorem test_decode_rejects :
    decode [0x60] = .error (.truncated 1) ∧ decode [0x01, 0xE0, 0x00] = .error (.unknownWord 0x01E0) ∧
      decode [0x60, 0x05, 0x70] = .ok (.ldImm 0 5, [0x70]) := by decide

/-- DEC-1: the six fields of `D12F`. -/
theorem test_split : split 0xD12F = ⟨0xD, 1, 2, 0xF, 0x2F, 0x12F⟩ := by decide

/-! ### The step (section 2.2) -/

/-- S-1, S-2. -/
theorem test_step_bad_fetch :
    (nextOf (State.reset.setPC 0x201)).status = .halted ⟨.pcMisaligned 0x201, 0x201, none⟩ ∧
      (nextOf (State.reset.setPC 0x1000)).status = .halted ⟨.memoryOutOfRange 0x1000, 0x1000, none⟩ := by decide

/-- S-3: the last word of memory runs. -/
theorem test_step_last_word : after (State.reset.setPC 0xFFE) 0x6001 (fun t => (t.getV 0, t.pc)) = some (1, 0x1000) := by
  decide

/-- S-4, S-8, and S-7 with its TimerTick. -/
theorem test_step_timers :
    after ((State.reset.setDT 3).setST 1) 0x6000 (fun t => (t.dt, t.st, t.pc)) = some (2, 0, 0x202) ∧
    after State.reset 0x6000 (fun t => (t.dt, t.st)) = some (0, 0) ∧
    after (external.setDT 3) 0x6000 (fun t => (t.dt, (timerTick t).map State.dt)) = some (3, some 2) := by decide

/-- S-5: no timer phase in a faulting step. -/
theorem test_step_decode_error : after (State.reset.setDT 3) 0xFFFF (fun t => (t.status, t.dt, t.pc)) =
    some (.halted ⟨.decodeError 0xFFFF, 0x200, some 0xFFFF⟩, 3, 0x200) := by decide

/-! ### Display (section 2.3) -/

/-- CLS-1. -/
theorem test_cls : after (State.reset.setFB (fbSet (fbSet fbClear 5 7 true) 63 31 true)) 0x00E0
    (fun t => (fbCell t.fb 5 7, fbCell t.fb 63 31, t.pc)) = some (false, false, 0x202) := by decide

/-- DRW-3: clipped at the right edge, not wrapped. -/
theorem test_drw_clips : after (((atI 0x300 [0xFF]).setV 1 0x3E).setV 2 0) 0xD121
    (fun t => (fbCell t.fb 61 0, fbCell t.fb 62 0, fbCell t.fb 63 0, fbCell t.fb 0 0, t.getV 15)) =
      some (false, true, true, false, 0) := by decide

/-- DRW-6: XOR and collision. -/
theorem test_drw_collides : after ((atI 0x300 [0xC0]).setFB (fbSet fbClear 0 0 true)) 0xD011
    (fun t => (fbCell t.fb 0 0, fbCell t.fb 1 0, t.getV 15)) = some (false, true, 1) := by decide

/-! ### Control flow (section 2.4) -/

/-- RET-1, RET-2. -/
theorem test_ret : after State.reset 0x00EE (fun t => t.status) = some (.halted ⟨.stackUnderflow, 0x200, some 0x00EE⟩) ∧
    after (State.reset.setStack [0x206]) 0x00EE (fun t => (t.pc, t.stack)) = some (0x206, []) := by decide

/-- JP-1. -/
theorem test_jp : after State.reset 0x1204 (fun t => t.pc) = some 0x204 := by decide

/-- CALL-1. -/
theorem test_call : after State.reset 0x2300 (fun t => (t.pc, t.stack)) = some (0x300, [0x202]) := by decide

/-- CALL-2. -/
theorem test_call_full : after ((limited 2).setStack [0x302, 0x202]) 0x2400 (fun t => (t.status, t.stack)) =
    some (.halted ⟨.stackOverflow 2, 0x200, some 0x2400⟩, [0x302, 0x202]) := by decide

/-- SE-1, SE-2, SNE-1, SNE-2. -/
theorem test_skip_imm :
    after (State.reset.setV 0 0x42) 0x3042 (fun t => t.pc) = some 0x204 ∧
    after (State.reset.setV 0 0x41) 0x3042 (fun t => t.pc) = some 0x202 ∧
    after (State.reset.setV 0 0x41) 0x4042 (fun t => t.pc) = some 0x204 ∧
    after (State.reset.setV 0 0x42) 0x4042 (fun t => t.pc) = some 0x202 := by decide

/-- SER-1, SER-2, SNER-1, SNER-2. -/
theorem test_skip_reg :
    after State.reset 0x5000 (fun t => t.pc) = some 0x204 ∧ after (regs 1 2 0) 0x5120 (fun t => t.pc) = some 0x202 ∧
    after State.reset 0x9000 (fun t => t.pc) = some 0x202 ∧ after (regs 1 2 0) 0x9120 (fun t => t.pc) = some 0x204 := by
  decide

/-- JPV-2: the sum does not wrap, and the jump itself does not fault. -/
theorem test_jpV0 : after (State.reset.setV 0 0xFF) 0xBFFF (fun t => (t.pc, t.status)) = some (0x10FE, .running) := by
  decide

/-! ### Arithmetic, logic, random (section 2.5) -/

/-- LD-1. -/
theorem test_ldImm : after State.reset 0x6FAB (fun t => t.getV 15) = some 0xAB := by decide

/-- ADDI-1. -/
theorem test_addImm : after ((State.reset.setV 0 0xFF).setV 15 0x55) 0x7001 (fun t => (t.getV 0, t.getV 15)) =
    some (0x00, 0x55) := by decide

/-- MOV-1. -/
theorem test_ldReg : after (regs 1 0x9C 0) 0x8120 (fun t => t.getV 1) = some 0x9C := by decide

/-- OR-1: VF is not reset. -/
theorem test_or : after (regs 0xF0 0x0F 1) 0x8121 v1vf = some (0xFF, 1) := by decide

/-- AND-1. -/
theorem test_and : after (regs 0xF0 0x3C 0) 0x8122 v1vf = some (0x30, 0) := by decide

/-- XOR-1. -/
theorem test_xor : after (regs 0x5A 0 0) 0x8113 v1vf = some (0x00, 0) := by decide

/-- ADD-1, ADD-2. -/
theorem test_addReg : after (regs 0xFF 0x01 0) 0x8124 v1vf = some (0x00, 1) ∧
    after (regs 0x80 0x7F 9) 0x8124 v1vf = some (0xFF, 0) := by decide

/-- ADD-5: the destination VF ends holding the carry. -/
theorem test_addReg_vf : after (regs 0 0xF5 0x10) 0x8F24 (fun t => t.getV 15) = some 1 := by decide

/-- SUB-1, SUB-2. -/
theorem test_sub : after (regs 5 5 0) 0x8125 v1vf = some (0, 1) ∧ after (regs 0 1 9) 0x8125 v1vf = some (0xFF, 0) := by
  decide

/-- SUBN-1, SUBN-2. -/
theorem test_subn : after (regs 5 7 0) 0x8127 v1vf = some (2, 1) ∧ after (regs 7 5 9) 0x8127 v1vf = some (0xFE, 0) := by
  decide

/-- SHR-1, SHR-3: `y` is ignored. -/
theorem test_shr : after (regs 1 0 0) 0x8106 v1vf = some (0, 1) ∧ after (regs 4 0xFF 9) 0x8126 v1vf = some (2, 0) := by
  decide

/-- SHL-1, SHL-2. -/
theorem test_shl : after (regs 0x80 0 0) 0x810E v1vf = some (0, 1) ∧
    after (regs 0x7F 0 9) 0x810E v1vf = some (0xFE, 0) := by decide

/-- SHL-4: the destination VF ends holding the bit shifted out. -/
theorem test_shl_vf : after (regs 0 0 0x81) 0x8F0E (fun t => t.getV 15) = some 1 := by decide

/-- RND-1, with the draw supplied at the Random port. -/
theorem test_rnd : after (supplyDraw State.reset 0xA7) 0xC10F (fun t => t.getV 1) = some 0x07 := by decide

/-! ### Address register and memory (section 2.6) -/

/-- LDI-1. -/
theorem test_ldI : after State.reset 0xAFFF (fun t => t.i) = some 0x0FFF := by decide

/-- ADDI-I-1: not masked to the memory size, no flag. -/
theorem test_addI : after (((State.reset.setI 0x0FFF).setV 0 1).setV 15 9) 0xF01E (fun t => (t.i, t.getV 15)) =
    some (0x1000, 9) := by decide

/-- ADDI-I-2. -/
theorem test_addI_wraps : after ((State.reset.setI 0xFFFF).setV 0 2) 0xF01E (fun t => t.i) = some 0x0001 := by decide

/-- FONT-1, FONT-2. -/
theorem test_ldF : after (State.reset.setV 0 0x0F) 0xF029 (fun t => t.i) = some 0x004B ∧
    after (State.reset.setV 0 0x10) 0xF029 (fun t => t.i) = some 0x0050 := by decide

/-- BCD-1. -/
theorem test_bcd : after ((State.reset.setI 0x300).setV 0 0xFF) 0xF033
    (fun t => (t.byteAt 0x300, t.byteAt 0x301, t.byteAt 0x302)) = some (2, 5, 5) := by decide

/-- BCD-5: nothing is written where one byte is out of range. -/
theorem test_bcd_out : after ((State.reset.setI 0xFFE).setV 0 0xFF) 0xF033 (fun t => (t.status, t.byteAt 0xFFE)) =
    some (.halted ⟨.memoryOutOfRange 0x1000, 0x200, some 0xF033⟩, 0) := by decide

/-- ST-1. -/
theorem test_store : after (((State.reset.setI 0x300).setV 0 7).setV 1 8) 0xF055
    (fun t => (t.byteAt 0x300, t.byteAt 0x301, t.i)) = some (7, 0, 0x300) := by decide

/-- ST-3. -/
theorem test_store_out : after ((State.reset.setI 0xFF1).setV 0 7) 0xFF55 (fun t => (t.status, t.byteAt 0xFF1)) =
    some (.halted ⟨.memoryOutOfRange 0x1000, 0x200, some 0xFF55⟩, 0) := by decide

/-- LDM-1 on its two ends, VF among them. -/
theorem test_load : after (atI 0x300 [0x10, 0x11, 0x12, 0x13, 0x14, 0x15, 0x16, 0x17, 0x18, 0x19, 0x1A, 0x1B, 0x1C, 0x1D,
    0x1E, 0x1F]) 0xFF65 (fun t => (t.getV 0, t.getV 15, t.i)) = some (0x10, 0x1F, 0x300) := by decide

/-- LDM-2. -/
theorem test_load_out : after (State.reset.setI 0x1000) 0xF065 (fun t => t.status) =
    some (.halted ⟨.memoryOutOfRange 0x1000, 0x200, some 0xF065⟩) := by decide

/-! ### Timers and input (section 2.7) -/

/-- SKP-1, SKP-2, SKP-3. -/
theorem test_skp : after key3 0xE09E (fun t => t.pc) = some 0x204 ∧
    after (State.reset.setV 0 3) 0xE09E (fun t => t.pc) = some 0x202 ∧
    after (State.reset.setV 0 0x10) 0xE09E (fun t => t.status) =
      some (.halted ⟨.keyIndexOutOfRange 0x10, 0x200, some 0xE09E⟩) := by decide

/-- SKNP-1, SKNP-2, SKNP-3. -/
theorem test_sknp : after (State.reset.setV 0 3) 0xE0A1 (fun t => t.pc) = some 0x204 ∧
    after key3 0xE0A1 (fun t => t.pc) = some 0x202 ∧
    after (State.reset.setV 0 0xFF) 0xE0A1 (fun t => t.status) =
      some (.halted ⟨.keyIndexOutOfRange 0xFF, 0x200, some 0xE0A1⟩) := by decide

/-- GDT-1. -/
theorem test_ldVxDt : after (State.reset.setDT 1) 0xF107 (fun t => (t.getV 1, t.dt)) = some (1, 0) := by decide

/-- SDT-1, SDT-3. -/
theorem test_ldDtVx : after (State.reset.setV 0 5) 0xF015 (fun t => t.dt) = some 4 ∧
    after (external.setV 0 5) 0xF015 (fun t => t.dt) = some 5 := by decide

/-- SST-1. -/
theorem test_ldStVx : after (State.reset.setV 0 3) 0xF018 (fun t => t.st) = some 2 := by decide

/-- KEY-1. -/
theorem test_ldVxK_waits : after (State.reset.setDT 2) 0xF20A (fun t => (t.pc, t.dt, t.getV 2)) = some (0x200, 1, 0) ∧
    stepResult (put (State.reset.setDT 2) 0xF20A) = some (.waitingForKey 2) := by decide

/-- KEY-2. -/
theorem test_ldVxK_takes : after (setKeyLatch State.reset (Vector.replicate 16 false) true 7) 0xF20A
    (fun t => (t.getV 2, t.pc, t.keyAny)) = some (7, 0x202, true) := by decide

/-! ### Witnesses: for every obligation with hypotheses, a state and operands that meet them, at the boundary of each clause -/

/-- The placed word is what the next step fetches. -/
abbrev Placed (s : State) (w : Nat) : Prop := fetch (put s w) = .ok (BitVec.ofNat 16 w)

theorem runs_put {s : State} {w : Nat} {i : Instr} (h : s.status = .running) (hf : Placed s w)
    (hd : decodeWord (BitVec.ofNat 16 w) = some i) : RunsInstr (put s w) i := by
  obtain ⟨m, e⟩ := storeBytes_eq (wordBytes (BitVec.ofNat 16 (w % 2 ^ 16))) s s.pc.toNat
  refine ⟨?_, _, (fetch_eq_ok_iff _ _).1 hf, hd⟩
  rw [put, State.withFetchWord, placeWord, e]
  exact h

/-- Every running state has a next one. -/
theorem step_nextOf {s : State} (h : s.status = .running) : step s = .next (nextOf s) := by
  unfold nextOf
  rcases runStep_cases s with ⟨f, -, e⟩ | ⟨w, -, -, e⟩ | ⟨w, i, f, -, -, -, -, e⟩ | ⟨w, i, u, -, -, -, -, e⟩ <;>
    simp only [step_running h e]

/-- The block runs after the step. -/
def goesOn (s : State) : Bool := decide ((nextOf s).status = .running)

/-- Two bytes 0 at `PC`, and an address register at its last value for a one-byte access. -/
def atTop : State := State.reset.setI 0xFFF

/-- ConstructionSetsEveryPiece, ConstructedStatesHaveInvariant: an image is loaded; the last byte of
the font, of the image, and of memory. -/
theorem witness_construct : ∃ s, construct Params.standard [0x12, 0x34] = some s ∧ s.byteAt 79 = 0x80 ∧
    s.byteAt 0x201 = 0x34 ∧ s.byteAt 0x202 = 0 ∧ s.byteAt 0xFFF = 0 := ⟨_, rfl, by decide⟩

/-- LoadFailsExactlyWhen: legal parameters, `FONT_BASE` at its last value too; an image that overlaps the font by one byte
fails and one that ends before it does not; `test_image_too_long` has the other bound. -/
theorem witness_load : Params.standard.loadAddr.toNat % 2 = 0 ∧ Params.standard.fontBase.toNat + 80 ≤ 0x1000 ∧
    (0xFB0 : Word).toNat + 80 = 0x1000 ∧
    (construct { Params.standard with fontBase := 0x202 } [1, 2, 3]).isNone = true ∧
    (construct { Params.standard with fontBase := 0x202 } [1, 2]).isNone = false := by decide

/-- LoadFailsExactlyWhen at the edges that are the model's choice: `LOAD_ADDR` past memory (log 19), and strictly inside the
font with an empty image (log 10). -/
theorem witness_load_edges : (construct { Params.standard with loadAddr := 0x1000 } []).isNone = false ∧
    (construct { Params.standard with loadAddr := 0x1000 } [1]).isNone = true ∧
    (construct { Params.standard with loadAddr := 2 } []).isNone = true := by decide

/-- DecoderFollowsOpcodeMap: a row and a word of it. -/
theorem witness_row : ⟨0xF00F, 0x800E, "SHL"⟩ ∈ opcodeMap ∧ OpRow.Matches ⟨0xF00F, 0x800E, "SHL"⟩ 0x8ABE := by decide

/-- EncodeOfDecode. -/
theorem witness_decodes : decodeWord 0x8AB6 = some (.shr 0xA 0xB) := by decide

/-- StepRunsDecodedInstruction, RunningBlockAlwaysSteps: the block runs, the word is fetched and decodes. -/
theorem witness_runs : (put State.reset 0x6005).status = .running ∧ Fetches (put State.reset 0x6005) 0x6005 ∧
    decodeWord 0x6005 = some (.ldImm 0 5) := ⟨rfl, (fetch_eq_ok_iff _ _).1 (by decide), by decide⟩

/-- HaltedBlockTakesNoStep. -/
theorem witness_halted : (nextOf (put State.reset 0x00EE)).status = .halted ⟨.stackUnderflow, 0x200, some 0x00EE⟩ := by
  decide

/-- BadFetchHalts, each clause at its boundaries: odd addresses in and past memory, the first even one past it, the last
even one in it. -/
theorem witness_fetch : (State.reset.setPC 1).status = .running ∧ (0xFFF : Word).toNat % 2 = 1 ∧
    (0xFFFF : Word).toNat % 2 = 1 ∧ ((0x1000 : Word).toNat % 2 = 0 ∧ 0x1000 ≤ (0x1000 : Word).toNat) ∧
    (0xFFE : Word).toNat % 2 = 0 ∧ (0xFFE : Word).toNat < 0x1000 := by decide

/-- UnknownWordHalts. -/
theorem witness_unknown : (put State.reset 0x01E0).status = .running ∧ Fetches (put State.reset 0x01E0) 0x01E0 ∧
    ∀ r ∈ opcodeMap, ¬ r.Matches 0x01E0 := ⟨rfl, (fetch_eq_ok_iff _ _).1 (by decide), by decide⟩

/-- FaultsArePrecise, with a word fetched and without. -/
theorem witness_faulting : (∃ t, step (put State.reset 0x00EE) = .next t ∧ t.status ≠ .running) ∧
    ∃ t, step (State.reset.setPC 0x201) = .next t ∧ t.status ≠ .running :=
  ⟨⟨_, step_nextOf rfl, by decide⟩, _, step_nextOf rfl, by decide⟩

/-- BlockHaltsExactlyWhen: each cause at its first value. -/
theorem witness_halts :
    [put State.reset 0x00EE, put (limited 0) 0x2300, put atTop 0xD002, put (State.reset.setI 0xFFE) 0xF033,
      put atTop 0xF155, put atTop 0xF165, put (State.reset.setV 0 16) 0xE09E, put (State.reset.setV 0 16) 0xE0A1,
      State.reset.setPC 0xFFF, State.reset.setPC 0x1000, put State.reset 0x5121].map goesOn = List.replicate 11 false := by
  decide

/-- BlockHaltsExactlyWhen: and no fault at the last value before it. -/
theorem witness_goes_on :
    [put (State.reset.setStack [0x202]) 0x00EE, put (limited 1) 0x2300, put atTop 0xD001, put (State.reset.setI 0xFFF) 0xD000,
      put (State.reset.setI 0xFFFF) 0xD000, put (State.reset.setI 0xFFD) 0xF033, put atTop 0xF055, put atTop 0xF065,
      put (State.reset.setV 0 15) 0xE09E, put (State.reset.setV 0 15) 0xE0A1,
      put (State.reset.setPC 0xFFE) 0x5120].map goesOn = List.replicate 11 true := by decide

/-- StepKeepsInvariant: a state with the invariant and its step. -/
theorem witness_inv : State.reset.Inv ∧ ∃ t, step State.reset = .next t :=
  ⟨⟨by decide, memWf_reset, nofun, nofun, nofun⟩, _, step_nextOf rfl⟩

/-- OnlyStoresWriteMemory, OnlyDisplayWritesFramebuffer, OnlyIndexInstructionsWriteI, StepNeverWritesKeyLatch,
OnlyCallAndReturnTouchStack: a step that runs another instruction than those named. -/
theorem witness_other : (∃ t, step (put State.reset 0x1204) = .next t ∧ t.status = .running) ∧
    ∀ i, i ≠ .jp 0x204 → ¬ RunsInstr (put State.reset 0x1204) i :=
  ⟨⟨_, step_nextOf rfl, by decide⟩, fun _ h k => h (runsInstr_unique k (runs_put rfl (by decide) (by decide)))⟩

/-- OnlyCallAndReturnTouchStack: a step of each of the two. -/
theorem witness_stack : RunsInstr (put State.reset 0x2300) (.call 0x300) ∧
    RunsInstr (put (State.reset.setStack [0x206]) 0x00EE) .ret :=
  ⟨runs_put rfl (by decide) (by decide), runs_put rfl (by decide) (by decide)⟩

/-- OnlySixInstructionsWriteVF: a step that changes VF. -/
theorem witness_vf : RunsInstr (put (regs 0xFF 1 0) 0x8124) (.addReg 1 2) ∧ ∃ t, step (put (regs 0xFF 1 0) 0x8124) = .next t ∧
    t.getV 15 ≠ (put (regs 0xFF 1 0) 0x8124).getV 15 :=
  ⟨runs_put rfl (by decide) (by decide), _, step_nextOf rfl, by decide⟩

/-- TimersCountEveryStep, TimerDecrementCountsBothDown, TimerTickPort, with each coupling. -/
theorem witness_timers : (RunsInstr (put State.reset 0x6000) (.ldImm 0 0) ∧ goesOn (put State.reset 0x6000) = true ∧
      (put State.reset 0x6000).params.timerCoupling = .perStep) ∧
    RunsInstr (put external 0x6000) (.ldImm 0 0) ∧ goesOn (put external 0x6000) = true ∧
      (put external 0x6000).params.timerCoupling = .external ∧ (put external 0x6000).status = .running :=
  ⟨⟨runs_put rfl (by decide) (by decide), by decide, rfl⟩, runs_put rfl (by decide) (by decide), by decide, rfl, rfl⟩

/-- WrittenTimerIsCountedInSameStep, each clause, with each coupling. -/
theorem witness_timer_moves : RunsInstr (put State.reset 0xF115) (.ldDtVx 1) ∧ RunsInstr (put external 0xF115) (.ldDtVx 1) ∧
    RunsInstr (put State.reset 0xF118) (.ldStVx 1) ∧ RunsInstr (put external 0xF118) (.ldStVx 1) ∧
    RunsInstr (put State.reset 0xF107) (.ldVxDt 1) := by
  refine ⟨?_, ?_, ?_, ?_, ?_⟩ <;> exact runs_put rfl (by decide) (by decide)

/-- DrwXorsSpriteAndSetsVF: the bounds of both clauses, and a drawn cell that was set and one that was not. -/
theorem witness_drw : ((0 : Nibble) = 0 ∧ atTop.i.toNat + (1 : Nibble).toNat ≤ 0x1000) ∧
    ((2 : Nibble) ≠ 0 ∧ 0x1000 < atTop.i.toNat + (2 : Nibble).toNat) ∧
    SpriteSets (State.reset.setV 0 63) 0 1 1 63 0 ∧ fbCell (fbSet fbClear 63 0 true) 63 0 = true ∧
    fbCell (State.reset.setV 0 63).fb 63 0 = false := by
  refine ⟨by decide, by decide, by unfold SpriteSets; decide, by decide, by decide⟩

/-- DrawTwiceRestoresFramebuffer: two draws that complete. -/
theorem witness_draw_twice : ∃ t u, (0 : Nibble) ≠ 15 ∧ (1 : Nibble) ≠ 15 ∧ exec (.drw 0 1 5) State.reset = .next t ∧
    exec (.drw 0 1 5) t = .next u := ⟨_, _, by decide, by decide, rfl, rfl⟩

/-- RetPopsSavedPC: an entry, and an empty stack. -/
theorem witness_ret : (State.reset.setStack [0x206]).stack = 0x206 :: [] ∧ RunsInstr (put State.reset 0x00EE) .ret ∧
    (put State.reset 0x00EE).stack = [] := ⟨rfl, runs_put rfl (by decide) (by decide), rfl⟩

/-- CallPushesReturnAddress: one entry below the limit, no limit, and at the limit. -/
theorem witness_call : (limited 1).params.stackLimit ≠ some (limited 1).stack.length ∧
    State.reset.params.stackLimit ≠ some State.reset.stack.length ∧
    (limited 0).params.stackLimit = some 0 ∧ (limited 0).stack.length = 0 := by decide

/-- CallThenReturn: the call, its step, and the return at its target. -/
theorem witness_call_return : RunsInstr (put (placeWord State.reset 0x300 0x00EE) 0x2300) (.call 0x300) ∧
    ∃ t, step (put (placeWord State.reset 0x300 0x00EE) 0x2300) = .next t ∧ t.status = .running ∧ RunsInstr t .ret :=
  ⟨runs_put rfl (by decide) (by decide), _, step_nextOf rfl, by decide, by decide,
    0x00EE, (fetch_eq_ok_iff _ _).1 (by decide), by decide⟩

/-- RegisterSkips: a word of each family whose `n` is not 0. -/
theorem witness_skips : ((0x512F : Word).toNat / 0x1000 = 5 ∧ (0x512F : Word).toNat % 0x10 ≠ 0) ∧
    (0x9001 : Word).toNat / 0x1000 = 9 ∧ (0x9001 : Word).toNat % 0x10 ≠ 0 := by decide

/-- AddWithCarry, SubtractSetsNoBorrow, ShiftsByOne: a destination that is not VF. -/
theorem witness_not_vf : (14 : Nibble) ≠ 15 := by decide

/-- EachStepHasAFreshDraw: a supplied draw, an empty port, and a step. -/
theorem witness_draw : (supplyDraw State.reset 0xA7).randIn = 0xA7 :: [] ∧ State.reset.randIn = [] ∧
    ∃ t, step (put State.reset 0xC10F) = .next t ∧ t.status = .running := ⟨rfl, rfl, _, step_nextOf rfl, by decide⟩

/-- ArithmeticTouchesOnlyRegisters: two states that differ but in registers and draw, and a run after a clear screen. -/
theorem witness_arith : IsArith (.addReg 1 2) ∧ (∀ r, (State.reset.setDT 3).getV r = State.reset.getV r) ∧
    (State.reset.setDT 3).rand8 = State.reset.rand8 ∧ IsSkip (.seImm 0 1) ∧
    ∃ t, execAll (.cls :: [.addImm 0 1, .seImm 0 1]) State.reset = .next t :=
  ⟨trivial, fun _ => rfl, rfl, trivial, _, rfl⟩

/-- LdBStoresDecimalDigits, BlockStoreWritesRange, BlockLoadReadsRange: the bounds of both clauses. -/
theorem witness_blocks : Memory.wf State.reset.params State.reset.mem = true ∧ (0xFFD : Word).toNat + 2 < 0x1000 ∧
    0x1000 ≤ (0xFFE : Word).toNat + 2 ∧ (0xFF0 : Word).toNat + (15 : Nibble).toNat < 0x1000 ∧
    0x1000 ≤ (0xFF1 : Word).toNat + (15 : Nibble).toNat ∧ (15 : Nibble) ≤ 15 := by decide

/-- BlockStoreThenLoadIsIdentity: a store, the registers changed, and the load. -/
theorem witness_store_load : ∃ t t' u, Memory.wf (atI 0x300 []).params (atI 0x300 []).mem = true ∧
    exec (.ldMemVx 2) (atI 0x300 []) = .next t ∧ Frame { v := fun _ => True, pc := True } t t' ∧
    exec (.ldVxMem 2) t' = .next u ∧ (2 : Nibble) ≤ 2 :=
  ⟨_, _, _, by decide, rfl, frame_setV trivial _ (x := 0) 0xAA, rfl, by decide⟩

/-- FetchSeesEarlierStore: a store of two registers over the next word. -/
theorem witness_self_modifying : Memory.wf (put (State.reset.setI 0x202) 0xF155).params (put (State.reset.setI 0x202) 0xF155).mem = true ∧
    RunsInstr (put (State.reset.setI 0x202) 0xF155) (.ldMemVx 1) ∧
    (∃ t, step (put (State.reset.setI 0x202) 0xF155) = .next t ∧ t.status = .running) ∧
    (put (State.reset.setI 0x202) 0xF155).i = (put (State.reset.setI 0x202) 0xF155).pc + 2 ∧ 1 ≤ (1 : Nibble).toNat :=
  ⟨by decide, runs_put rfl (by decide) (by decide), ⟨_, step_nextOf rfl, by decide⟩, by decide, by decide⟩

/-- KeySkips: the last key and the first value that is none. -/
theorem witness_keys : ((State.reset.setV 0 15).getV 0).toNat < 16 ∧ 15 < ((State.reset.setV 0 16).getV 0).toNat := by decide

/-- WaitForKey, StepResultReportsWaiting: no key latched in a step of `Fx0A`, and one latched. -/
theorem witness_wait : (put State.reset 0xF20A).keyAny = false ∧ key3.keyAny = true ∧
    RunsInstr (put State.reset 0xF20A) (.ldVxK 2) ∧ (put State.reset 0xF20A).status = .running ∧
    ∃ t, step (put State.reset 0xF20A) = .next t :=
  ⟨rfl, rfl, runs_put rfl (by decide) (by decide), rfl, _, step_nextOf rfl⟩

end Sys2Proof.Tests
end

section
/-! SUPPORT. What construction yields, and the invariant of the block (00_scope.md R11, R13, R14; 10_state.md R33,
R39; 60_exceptions.md R138). -/
namespace Sys2Proof.Machine

/-! ### Construction and the reset state -/

/-- The block before the image is copied: reset registers, `PC` at `LOAD_ADDR`, memory the background alone (R151, R153). -/
def blankState (p : Params) : State := { State.reset with params := p, pc := p.loadAddr }

theorem blankState_standard : blankState Params.standard = State.reset := rfl

theorem construct_eq_some_iff {p : Params} {image : List Byte} {s : State} : construct p image = some s ↔
    p.wf = true ∧ p.imageWf image = true ∧ s = (blankState p).storeBytes p.loadAddr.toNat image := by
  unfold construct blankState
  rw [Option.ite_none_right_eq_some, Bool.and_eq_true, and_assoc, Option.some.injEq, eq_comm (a := s)]

theorem construct_eq_none_iff {p : Params} {image : List Byte} : construct p image = none ↔
    ¬ (p.wf = true ∧ p.imageWf image = true) := by
  unfold construct
  simp only [ite_eq_right_iff, reduceCtorEq, imp_false, Bool.and_eq_true]

theorem params_wf_iff (p : Params) : p.wf = true ↔ p.loadAddr.toNat % 2 = 0 ∧ p.fontBase.toNat + 80 ≤ 0x1000 := by
  simp only [Params.wf, Params.loadAddrEven, Params.fontInMemory, Bool.and_eq_true, beq_iff_eq, decide_eq_true_eq]

theorem imageWf_iff (p : Params) (image : List Byte) : p.imageWf image = true ↔
    image.length ≤ 0x1000 - p.loadAddr.toNat ∧
      (p.fontBase.toNat + 80 ≤ p.loadAddr.toNat ∨ p.loadAddr.toNat + image.length ≤ p.fontBase.toNat) := by
  simp only [Params.imageWf, Params.imageFits, Params.imageClearOfFont, Bool.and_eq_true, decide_eq_true_eq]

/-- Settles O2: with legal parameters a failure is a failure of the image's check, whose negation is the disjunction. -/
theorem loadFailsExactlyWhen : Obligations.LoadFailsExactlyWhen := by
  intro p image heven hfont
  rw [construct_eq_none_iff, params_wf_iff, imageWf_iff]
  omega

/-- The background holds the font table at `FONT_BASE` (R153). -/
theorem background_font (p : Params) {k : Nat} (h : k < 80) : background p (p.fontBase.toNat + k) = p.fontData[k] := by
  simp [background, h]

/-- The background reads 0 outside the font table (R153). -/
theorem background_outside {p : Params} {a : Nat} (h : ¬ (p.fontBase.toNat ≤ a ∧ a < p.fontBase.toNat + 80)) :
    background p a = 0 := by
  unfold background
  split_ifs with ha
  · rw [Vector.getElem?_eq_none (by omega)]; rfl
  · rfl

@[simp] theorem byteAt_blankState (p : Params) (a : Nat) : (blankState p).byteAt a = background p a := rfl

@[simp] theorem byteAt_reset (a : Nat) : State.reset.byteAt a = background Params.standard a :=
  byteAt_blankState Params.standard a

@[simp] theorem getV_reset (r : Nibble) : State.reset.getV r = 0 := by
  simp [State.reset, State.getV]

/-- Settles O3: the registers by computation, memory by the two lemmas on the background. -/
theorem resetHasDefaults : Obligations.ResetHasDefaults := by
  have hbase : Params.standard.fontBase.toNat = 0 := rfl
  refine ⟨rfl, rfl, rfl, getV_reset, fun k hk => ?_, fun a ha => ?_⟩
  · have hfont := background_font Params.standard hk
    rw [hbase, Nat.zero_add] at hfont
    exact (byteAt_reset k).trans hfont
  · exact (byteAt_reset a).trans (background_outside (by omega))

/-! ### The invariant where no instruction runs -/

theorem inv_blankState {p : Params} (h : p.wf = true) : (blankState p).Inv where
  params := h
  mem := rfl
  depth _ _ := Nat.zero_le _
  saved := nofun
  record := nofun

theorem inv_storeBytes {s : State} (h : s.Inv) (a : Nat) (bs : List Byte) : (s.storeBytes a bs).Inv := by
  have hmem := memWf_storeBytes bs h.mem a
  obtain ⟨m, e⟩ := storeBytes_eq bs s a
  rw [e] at hmem ⊢
  exact ⟨h.params, hmem, h.depth, h.saved, h.record⟩

/-- Settles O17: the blank state has the invariant, and copying the image keeps it; reset is a blank state. -/
theorem constructedStatesHaveInvariant : Obligations.ConstructedStatesHaveInvariant := by
  refine ⟨blankState_standard ▸ inv_blankState (by decide), fun p image s hs => ?_⟩
  obtain ⟨hp, -, rfl⟩ := construct_eq_some_iff.1 hs
  exact inv_storeBytes (inv_blankState hp) _ _

/-- Taking a fault keeps the invariant: the record it writes names `PC` (R82, R138). -/
theorem inv_takeFault {s : State} (h : s.Inv) (f : Fault) (w : Option Word) : (takeFault s f w).Inv where
  params := h.params
  mem := h.mem
  depth := h.depth
  saved := h.saved
  record _ hr := by cases hr; rfl

/-! ### What completes: the shared operations and the stack, inverted -/

theorem skipIf_next {c : Bool} {s t : State} (h : skipIf c s = .next t) : ∃ w, t = s.setPC w := by
  rw [skipIf_eq] at h
  cases h
  exact ⟨_, rfl⟩

theorem withKey_next {s t : State} {k : Byte} {cont : Bool → Out} (h : withKey s k cont = .next t) :
    ∃ pressed, cont pressed = .next t := by
  by_cases hk : k.toNat < 16
  · exact ⟨_, withKey_ok hk cont ▸ h⟩
  · rw [withKey_bad s hk] at h; cases h

theorem withRange_next {base len : Nat} {k : Out} {t : State} (h : withRange base len k = .next t) : k = .next t := by
  rcases withRange_cases base len k with ⟨-, e⟩ | ⟨-, -, e⟩ <;> rw [e] at h
  · exact h
  · cases h

/-- A `RET` that completes has popped the top entry into `PC` (R91). -/
theorem exec_ret_next {s t : State} (h : exec .ret s = .next t) :
    ∃ w rest, s.stack = w :: rest ∧ t = (s.setStack rest).setPC w := by
  change execRet s = _ at h
  unfold execRet at h
  cases hs : s.stack with
  | nil => rw [pop_nil hs] at h; cases h
  | cons w rest => rw [pop_cons hs] at h; cases h; exact ⟨w, rest, rfl, rfl⟩

/-- A `CALL` that completes found room and has pushed `PC` (R93). -/
theorem exec_call_next {nnn : Addr12} {s t : State} (h : exec (.call nnn) s = .next t) :
    s.params.stackLimit ≠ some s.stack.length ∧ t = (s.setStack (s.pc :: s.stack)).setPC (immAddr nnn) := by
  change execCall nnn s = _ at h
  unfold execCall at h
  by_cases hl : s.params.stackLimit = some s.stack.length
  · rw [push_full hl] at h; cases h
  · rw [push_ok hl] at h; cases h; exact ⟨hl, rfl⟩

/-- A skip that completes sets `PC` and nothing else (R94 to R97, R122, R123). -/
theorem exec_skip_next {i : Instr} {s t : State} (h : exec i s = .next t) (hi : IsSkip i) : ∃ w, t = s.setPC w := by
  cases i with
  | seImm | sneImm | seReg | sneReg => exact skipIf_next h
  | skp x =>
    obtain ⟨pressed, hk⟩ := withKey_next (show execSkp x s = .next t from h)
    exact skipIf_next hk
  | sknp x =>
    obtain ⟨pressed, hk⟩ := withKey_next (show execSknp x s = .next t from h)
    exact skipIf_next hk
  | _ => exact hi.elim

/-! ### What an instruction does to the stack and to the list of memory cells -/

/-- An instruction leaves the stack, or is `RET` popping what `PC` becomes, or is `CALL` pushing `PC` where there is room. -/
theorem exec_stack_cases {i : Instr} {s t : State} (h : exec i s = .next t) :
    t.stack = s.stack ∨ (i = .ret ∧ s.stack = t.pc :: t.stack) ∨
      ((∃ nnn, i = .call nnn) ∧ s.params.stackLimit ≠ some s.stack.length ∧ t.stack = s.pc :: s.stack) := by
  by_cases hs : (changesOf s i).stack
  · cases i with
    | ret => obtain ⟨w, rest, hw, rfl⟩ := exec_ret_next h; exact .inr (.inl ⟨rfl, hw⟩)
    | call nnn => obtain ⟨hl, rfl⟩ := exec_call_next h; exact .inr (.inr ⟨⟨nnn, rfl⟩, hl, rfl⟩)
    | _ => exact hs.elim
  · exact .inl ((exec_frame h).stack hs)

/-- An instruction leaves the list of memory cells as it is, or is a block store. `Frame` speaks of the bytes alone, and the
canonical form is a property of the list. -/
theorem exec_mem_cases {i : Instr} {s t : State} (h : exec i s = .next t) :
    t.mem = s.mem ∨ ∃ a bs, t = s.storeBytes a bs := by
  cases i with
  | ldBVx x | ldMemVx x => cases withRange_next h; exact .inr ⟨_, _, rfl⟩
  | drw x y n => cases withRange_next h; exact .inl rfl
  | ldVxMem x =>
    cases withRange_next h
    obtain ⟨v, e⟩ := loadRegs_eq (s.loadBytes s.i.toNat (blockLen x)) s 0
    exact .inl (by rw [e])
  | seImm | sneImm | seReg | sneReg | skp | sknp => obtain ⟨w, rfl⟩ := exec_skip_next h trivial; exact .inl rfl
  | ret => obtain ⟨w, rest, -, rfl⟩ := exec_ret_next h; exact .inl rfl
  | call nnn => obtain ⟨-, rfl⟩ := exec_call_next h; exact .inl rfl
  | ldVxK x => cases h; left; split_ifs <;> rfl
  | cls | jp | ldImm | addImm | ldReg | orReg | andReg | xorReg | addReg | sub | shr | subn | shl | ldI | jpV0 | rnd
  | ldVxDt | ldDtVx | ldStVx | addIVx | ldFVx => cases h; exact .inl rfl

theorem exec_keeps_memWf {i : Instr} {s t : State} (hm : s.MemWf) (h : exec i s = .next t) : t.MemWf := by
  rcases exec_mem_cases h with e | ⟨a, bs, rfl⟩
  · rwa [State.MemWf, e, (exec_frame h).params]
  · exact memWf_storeBytes bs hm a

/-- The stack stays within the limit: a push happens only where the stack is not full (R33, R93). -/
theorem exec_keeps_depth {i : Instr} {s t : State} {l : Nat} (hl : s.params.stackLimit = some l)
    (hd : s.stack.length ≤ l) (h : exec i s = .next t) : t.stack.length ≤ l := by
  rcases exec_stack_cases h with e | ⟨-, e⟩ | ⟨-, hroom, e⟩
  · rwa [e]
  · rw [e, List.length_cons] at hd; omega
  · have hne : s.stack.length ≠ l := fun k => hroom (by rw [hl, k])
    rw [e, List.length_cons]; omega

/-- Whatever holds of every entry and of the `PC` that a `CALL` pushes holds of every entry afterwards. -/
theorem exec_keeps_saved {P : Word → Prop} {i : Instr} {s t : State} (hpc : P s.pc) (hs : ∀ w ∈ s.stack, P w)
    (h : exec i s = .next t) : ∀ w ∈ t.stack, P w := by
  rcases exec_stack_cases h with e | ⟨-, e⟩ | ⟨-, -, e⟩
  · rwa [e]
  · exact fun w hw => hs w (e ▸ List.mem_cons_of_mem _ hw)
  · rw [e]; exact List.forall_mem_cons.2 ⟨hpc, hs⟩

/-! ### The step -/

@[simp] theorem endStep_stack (s : State) : (endStep s).stack = s.stack := by rw [endStep_eq]
@[simp] theorem endStep_mem (s : State) : (endStep s).mem = s.mem := by rw [endStep_eq]
@[simp] theorem endStep_status (s : State) : (endStep s).status = s.status := by rw [endStep_eq]
@[simp] theorem endStep_params (s : State) : (endStep s).params = s.params := by rw [endStep_eq]

/-- Where a word is fetched, the address after it is a return address: the fetch checks that `PC` is even and inside memory,
so `PC + 2` does not wrap (R74, R75). -/
theorem returnAddress_advance {s : State} {w : Word} (h : Fetches s w) : ReturnAddress (advance s).pc := by
  obtain ⟨heven, hlt, -⟩ := h
  have hpc : (advance s).pc.toNat = s.pc.toNat + 2 := by
    change (s.pc + 2).toNat = _
    rw [BitVec.toNat_add, show (2 : Word).toNat = 2 from rfl]
    omega
  unfold ReturnAddress
  omega

/-- A step that completes keeps the invariant. -/
theorem inv_endStep {s u : State} {i : Instr} (h : s.Inv) (hr : RunsInstr s i) (hx : exec i (advance s) = .next u) :
    (endStep u).Inv := by
  obtain ⟨hrun, w, hw, -⟩ := hr
  have frame := exec_frame hx
  have hparams : u.params = s.params := frame.params
  have hstatus : u.status = .running := frame.status.trans hrun
  refine ⟨?_, ?_, ?_, ?_, ?_⟩
  · rw [endStep_params, hparams]; exact h.params
  · rw [endStep_params, endStep_mem]
    exact exec_keeps_memWf (s := advance s) h.mem hx
  · intro l hl
    rw [endStep_params, hparams] at hl
    rw [endStep_stack]
    exact exec_keeps_depth (s := advance s) hl (h.depth l hl) hx
  · rw [endStep_stack]
    exact exec_keeps_saved (returnAddress_advance hw) h.saved hx
  · intro f hf
    rw [endStep_status, hstatus] at hf
    cases hf

/-- Settles O16: a step takes a fault, which changes `STATUS` alone, or completes an instruction. -/
theorem stepKeepsInvariant : Obligations.StepKeepsInvariant := by
  intro s t hinv hstep
  obtain ⟨-, ⟨f, w, rfl⟩ | ⟨i, u, hr, hx, rfl⟩⟩ := step_cases hstep
  · exact inv_takeFault hinv f w
  · exact inv_endStep hinv hr hx

end Sys2Proof.Machine
end

section
/-! SUPPORT. Which pieces of the state a step can write, and by which instructions (10_state.md R28 to R41). -/
namespace Sys2Proof.Machine

@[simp] theorem endStep_i (s : State) : (endStep s).i = s.i := by rw [endStep_eq]
@[simp] theorem endStep_pc (s : State) : (endStep s).pc = s.pc := by rw [endStep_eq]
@[simp] theorem endStep_keys (s : State) : (endStep s).keys = s.keys := by rw [endStep_eq]
@[simp] theorem endStep_keyAny (s : State) : (endStep s).keyAny = s.keyAny := by rw [endStep_eq]
@[simp] theorem endStep_keyLast (s : State) : (endStep s).keyLast = s.keyLast := by rw [endStep_eq]
@[simp] theorem endStep_fb (s : State) : (endStep s).fb = s.fb := by rw [endStep_eq]
@[simp] theorem getV_endStep (s : State) (r : Nibble) : (endStep s).getV r = s.getV r := by rw [endStep_eq]; rfl
@[simp] theorem byteAt_endStep (s : State) (a : Nat) : (endStep s).byteAt a = s.byteAt a := by rw [endStep_eq]; rfl

/-! ### Pieces that only the execute phase can write -/

/-- No phase of a step but the execute phase writes `g`: not the advance (R75), the end of the step (R79, R81) or the taking
of a fault (R82). -/
structure ExecOnly {α : Type} (g : State → α) : Prop where
  takeFault : ∀ s f w, g (takeFault s f w) = g s
  advance : ∀ s, g (advance s) = g s
  endStep : ∀ s, g (endStep s) = g s

theorem execOnly_i : ExecOnly State.i := ⟨fun _ _ _ => rfl, fun _ => rfl, endStep_i⟩
theorem execOnly_keys : ExecOnly State.keys := ⟨fun _ _ _ => rfl, fun _ => rfl, endStep_keys⟩
theorem execOnly_keyAny : ExecOnly State.keyAny := ⟨fun _ _ _ => rfl, fun _ => rfl, endStep_keyAny⟩
theorem execOnly_keyLast : ExecOnly State.keyLast := ⟨fun _ _ _ => rfl, fun _ => rfl, endStep_keyLast⟩
theorem execOnly_fb : ExecOnly State.fb := ⟨fun _ _ _ => rfl, fun _ => rfl, endStep_fb⟩
theorem execOnly_params : ExecOnly State.params := ⟨fun _ _ _ => rfl, fun _ => rfl, endStep_params⟩
theorem execOnly_getV (r : Nibble) : ExecOnly (·.getV r) :=
  ⟨fun _ _ _ => rfl, fun _ => rfl, fun s => getV_endStep s r⟩
theorem execOnly_byteAt (a : Nat) : ExecOnly (·.byteAt a) :=
  ⟨fun _ _ _ => rfl, fun _ => rfl, fun s => byteAt_endStep s a⟩

/-- Such a piece is kept by every step whose instruction keeps it. -/
theorem ExecOnly.step_keeps {α : Type} {g : State → α} (hg : ExecOnly g) {s t : State} (h : step s = .next t)
    (hexec : ∀ i u, RunsInstr s i → exec i (Machine.advance s) = .next u → g u = g (Machine.advance s)) : g t = g s := by
  obtain ⟨-, ⟨f, w, rfl⟩ | ⟨i, u, hr, hx, rfl⟩⟩ := step_cases h
  · exact hg.takeFault s f w
  · calc g (Machine.endStep u) = g u := hg.endStep u
      _ = g (Machine.advance s) := hexec i u hr hx
      _ = g s := hg.advance s

/-! ### The instructions that list a piece in their write column -/

theorem changesOf_mem {s : State} {i : Instr} {a : Nat} (h : (changesOf s i).mem a) :
    (∃ x, i = .ldBVx x) ∨ ∃ x, i = .ldMemVx x := by
  cases i with
  | ldBVx x => exact .inl ⟨x, rfl⟩
  | ldMemVx x => exact .inr ⟨x, rfl⟩
  | _ => exact h.elim

theorem changesOf_fb {s : State} {i : Instr} (h : (changesOf s i).fb) : i = .cls ∨ ∃ x y n, i = .drw x y n := by
  cases i with
  | cls => exact .inl rfl
  | drw x y n => exact .inr ⟨x, y, n, rfl⟩
  | _ => exact h.elim

theorem changesOf_i {s : State} {i : Instr} (h : (changesOf s i).i) :
    (∃ nnn, i = .ldI nnn) ∨ (∃ x, i = .addIVx x) ∨ ∃ x, i = .ldFVx x := by
  cases i with
  | ldI nnn => exact .inl ⟨nnn, rfl⟩
  | addIVx x => exact .inr (.inl ⟨x, rfl⟩)
  | ldFVx x => exact .inr (.inr ⟨x, rfl⟩)
  | _ => exact h.elim

/-! ### The statements -/

/-- Settles O18: the frame of every instruction keeps the key latch and the parameters. -/
theorem stepNeverWritesKeyLatch : Obligations.StepNeverWritesKeyLatch := by
  intro s t h
  exact ⟨execOnly_keys.step_keeps h fun _ _ _ hx => (exec_frame hx).keys,
    execOnly_keyAny.step_keeps h fun _ _ _ hx => (exec_frame hx).keyAny,
    execOnly_keyLast.step_keeps h fun _ _ _ hx => (exec_frame hx).keyLast,
    execOnly_params.step_keeps h fun _ _ _ hx => (exec_frame hx).params⟩

/-- Settles O19: only the two stores name a memory address in their frame. -/
theorem onlyStoresWriteMemory : Obligations.OnlyStoresWriteMemory := by
  intro s t h hbcd hblock a
  refine (execOnly_byteAt a).step_keeps h fun i u hr hx => (exec_frame hx).mem a fun hc => ?_
  rcases changesOf_mem hc with ⟨x, rfl⟩ | ⟨x, rfl⟩
  · exact hbcd x hr
  · exact hblock x hr

/-- Settles O20: a frame speaks of the framebuffer's cells, and equal cells make equal framebuffers. -/
theorem onlyDisplayWritesFramebuffer : Obligations.OnlyDisplayWritesFramebuffer := by
  intro s t h hcls hdrw
  refine execOnly_fb.step_keeps h fun i u hr hx => fb_ext fun cx cy _ _ => (exec_frame hx).fb (fun hc => ?_) cx cy
  rcases changesOf_fb hc with rfl | ⟨x, y, n, rfl⟩
  · exact hcls hr
  · exact hdrw x y n hr

/-- Settles O21: a fault leaves the stack, and an instruction that completes does one of three things to it; a `CALL` pushes
the `PC` of the advance phase. -/
theorem onlyCallAndReturnTouchStack : Obligations.OnlyCallAndReturnTouchStack := by
  intro s t h
  obtain ⟨-, ⟨f, w, rfl⟩ | ⟨i, u, hr, hx, rfl⟩⟩ := step_cases h
  · exact .inl rfl
  · rw [endStep_stack, endStep_pc]
    rcases exec_stack_cases hx with e | ⟨rfl, e⟩ | ⟨⟨nnn, rfl⟩, -, e⟩
    · exact .inl e
    · exact .inr (.inr ⟨hr, e⟩)
    · exact .inr (.inl ⟨nnn, hr, e⟩)

/-- Settles O22: only the three index instructions name `I` in their frame. -/
theorem onlyIndexInstructionsWriteI : Obligations.OnlyIndexInstructionsWriteI := by
  intro s t h hld hadd hfont
  refine execOnly_i.step_keeps h fun i u hr hx => (exec_frame hx).i fun hc => ?_
  rcases changesOf_i hc with ⟨nnn, rfl⟩ | ⟨x, rfl⟩ | ⟨x, rfl⟩
  · exact hld nnn hr
  · exact hadd x hr
  · exact hfont x hr

/-- A step that changes a register ran an instruction that names it in its frame. -/
theorem changesOf_v_of_step {s t : State} {i : Instr} {r : Nibble} (hr : RunsInstr s i) (h : step s = .next t)
    (hne : t.getV r ≠ s.getV r) : (changesOf (advance s) i).v r := by
  by_contra hn
  refine hne ((execOnly_getV r).step_keeps h fun j u hj hx => (exec_frame hx).v r ?_)
  rwa [runsInstr_unique hj hr]

/-- Settles O23: the instruction names VF in its frame, as the flag it writes or as its destination. -/
theorem onlySixInstructionsWriteVF : Obligations.OnlySixInstructionsWriteVF := by
  intro s t i hr h hne
  have hv := changesOf_v_of_step hr h hne
  cases i with
  | addReg x y | sub x y | shr x y | subn x y | shl x y => exact .inl ⟨x, y, by simp⟩
  | drw x y n => exact .inr (.inl ⟨x, y, n, rfl⟩)
  | ldImm x kk | addImm x kk | rnd x kk =>
    obtain rfl : (15 : Nibble) = x := hv
    exact .inr (.inr (.inl ⟨kk, by simp⟩))
  | ldReg x y | orReg x y | andReg x y | xorReg x y =>
    obtain rfl : (15 : Nibble) = x := hv
    exact .inr (.inr (.inr (.inl ⟨y, by simp⟩)))
  | ldVxDt x | ldVxK x =>
    obtain rfl : (15 : Nibble) = x := hv
    simp
  | ldVxMem x =>
    have hx : (15 : Nibble) ≤ x := hv
    obtain rfl : x = 15 := by bv_omega
    simp
  | _ => exact hv.elim

end Sys2Proof.Machine
end

section
/-! SUPPORT. What a block store leaves in memory, and that the next fetch reads it (20_memory.md R49, R60;
70_reset_and_hazards.md R159). -/
namespace Sys2Proof.Machine

/-! ### The block store, inverted -/

/-- A block store that completes had its whole range in memory, and has stored `V[0..x]` from `I` up (R53, R120). -/
theorem exec_ldMemVx_next {x : Nibble} {s t : State} (h : exec (.ldMemVx x) s = .next t) :
    s.i.toNat + x.toNat < memSize ∧ t = s.storeBytes s.i.toNat (s.regsUpTo x) := by
  change execLdMemVx x s = _ at h
  unfold execLdMemVx blockLen at h
  rcases withRange_cases s.i.toNat (x.toNat + 1) _ with ⟨hin, e⟩ | ⟨-, -, e⟩ <;> rw [e] at h <;> cases h
  exact ⟨by omega, rfl⟩

/-- After a block store `M[I + k]` is `V[k]`, for every register of the range (R120). -/
theorem byteAt_ldMemVx {x : Nibble} {s t : State} (hm : s.MemWf) (h : exec (.ldMemVx x) s = .next t) {k : Nibble}
    (hk : k ≤ x) : t.byteAt (s.i.toNat + k.toNat) = s.getV k := by
  obtain ⟨hin, rfl⟩ := exec_ldMemVx_next h
  have hlt : k.toNat < (s.regsUpTo x).length := by
    rw [regsUpTo_length]
    exact Nat.lt_succ_of_le (BitVec.le_def.1 hk)
  have hend : s.i.toNat + (s.regsUpTo x).length ≤ memSize := by rw [regsUpTo_length]; omega
  rw [byteAt_storeBytes _ hm hlt hend, regsUpTo_getElem, BitVec.ofNat_toNat, BitVec.setWidth_eq]

/-! ### A step that ends running, and the fetch after it -/

/-- A step that ends running took no fault: it ran the fetched instruction and ended (R84). -/
theorem step_runs_exec {s t : State} {i : Instr} (hr : RunsInstr s i) (h : step s = .next t)
    (hrun : t.status = .running) : ∃ u, exec i (advance s) = .next u ∧ t = endStep u := by
  obtain ⟨-, ⟨f, w, rfl⟩ | ⟨j, u, hj, hx, rfl⟩⟩ := step_cases h
  · cases hrun
  · rw [runsInstr_unique hr hj]
    exact ⟨u, hx, rfl⟩

/-- At an even `PC` with both bytes in memory the fetch gives the two bytes, the one at `PC` first (R49, R74). -/
theorem fetch_eq_ok {s : State} (heven : s.pc.toNat % 2 = 0) (hin : s.pc.toNat + 1 < memSize) :
    fetch s = .ok (s.byteAt s.pc.toNat ++ s.byteAt (s.pc.toNat + 1)) :=
  (fetch_eq_ok_iff s _).2 ⟨heven, hin, joinBytes_eq _ _⟩

/-- Settles O54: the step leaves `PC` at the store's first byte, even because the step's own fetch was, and the store's range
check covers both bytes. -/
theorem fetchSeesEarlierStore : Obligations.FetchSeesEarlierStore := by
  intro x s t hm hr hstep hrun hi hx
  obtain ⟨u, hexec, rfl⟩ := step_runs_exec hr hstep hrun
  obtain ⟨-, w, hw, -⟩ := hr
  have hpc : (endStep u).pc = s.i := by
    rw [endStep_pc, (exec_frame hexec).pc (fun h => h), hi]; rfl
  have heven : s.i.toNat % 2 = 0 := hi ▸ (returnAddress_advance hw).1
  have hin : s.i.toNat + x.toNat < memSize := (exec_ldMemVx_next hexec).1
  have hbyte {k : Nibble} (hk : k ≤ x) : u.byteAt (s.i.toNat + k.toNat) = s.getV k :=
    byteAt_ldMemVx (s := advance s) hm hexec hk
  have hhigh : u.byteAt s.i.toNat = s.getV 0 := hbyte (k := 0) (BitVec.le_def.2 (Nat.zero_le _))
  have hlow : u.byteAt (s.i.toNat + 1) = s.getV 1 := hbyte (k := 1) (BitVec.le_def.2 hx)
  rw [fetch_eq_ok (by rwa [hpc]) (by rw [hpc]; omega), hpc, byteAt_endStep, byteAt_endStep, hhigh, hlow]

end Sys2Proof.Machine
end

section
/-! SUPPORT. The encoder and the decoder are inverse to each other, and the decoder follows the opcode map
(30_encoding.md R62 to R70; 20_memory.md R49). -/
namespace Sys2Proof

/-! ### Decoding a word given by its fields -/

/-- A word of the form `_nnn` decodes to `i` when every reading of its family and its `nnn` is classified as `i`. -/
theorem decodeWord_nnn {f : Nibble} {nnn : Addr12} {i : Instr}
    (h : ∀ x y n kk, classifyFields ⟨f, x, y, n, kk, nnn⟩ = some i) : decodeWord (f ++ nnn) = some i := by
  obtain ⟨hi, mid, lo, rfl⟩ := exists_nibbles_of_addr nnn
  exact (congrArg classifyFields (split_ofNibbles f hi mid lo)).trans (h ..)

/-- The same for the form `_xkk`. -/
theorem decodeWord_xkk {f x : Nibble} {kk : Byte} {i : Instr}
    (h : ∀ y n nnn, classifyFields ⟨f, x, y, n, kk, nnn⟩ = some i) : decodeWord (f ++ (x ++ kk)) = some i := by
  obtain ⟨hi, lo, rfl⟩ := exists_nibbles_of_byte kk
  exact (congrArg classifyFields (split_ofNibbles f x hi lo)).trans (h ..)

/-- The same for the form `_xyn`. -/
theorem decodeWord_xyn {f x y n : Nibble} {i : Instr}
    (h : ∀ kk nnn, classifyFields ⟨f, x, y, n, kk, nnn⟩ = some i) : decodeWord (f ++ (x ++ (y ++ n))) = some i :=
  (congrArg classifyFields (split_ofNibbles f x y n)).trans (h ..)

/-- The classifier reads an instruction back from the fields of its form. -/
theorem decodeWord_encode (i : Instr) : decodeWord (encode i) = some i := by
  cases i with
  | cls | ret => decide
  | jp | call | ldI | jpV0 => exact decodeWord_nnn fun _ _ _ _ => rfl
  | seImm | sneImm | ldImm | addImm | rnd | skp | sknp | ldVxDt | ldVxK | ldDtVx | ldStVx | addIVx | ldFVx | ldBVx
  | ldMemVx | ldVxMem => exact decodeWord_xkk fun _ _ _ => rfl
  | seReg | ldReg | orReg | andReg | xorReg | addReg | sub | shr | subn | shl | sneReg | drw =>
    exact decodeWord_xyn fun _ _ => rfl

/-- The decoder over bytes reads a word's two bytes as that word and leaves what follows them. -/
theorem decode_wordBytes_append {w : Word} {i : Instr} (h : decodeWord w = some i) (rest : List Byte) :
    decode (wordBytes w ++ rest) = .ok (i, rest) := by
  simp only [wordBytes, List.cons_append, List.nil_append, decode, joinBytes_wordBytes, h]

/-- Settles O6: the word is classified by the fields the encoder wrote, and its two bytes join to it again. -/
theorem decodeOfEncode : Obligations.DecodeOfEncode :=
  fun i rest => ⟨decodeWord_encode i, decode_wordBytes_append (decodeWord_encode i) rest⟩

/-! ### Encoding what a word decodes to -/

/-- A bit vector is the literal its number is. -/
theorem eq_ofNat_of_toNat_eq {m k : Nat} {b : BitVec m} (h : b.toNat = k) : b = BitVec.ofNat m k := by
  rw [← h, BitVec.ofNat_toNat, BitVec.setWidth_eq]

theorem encode_of_classify0 {d : Fields} {i : Instr} (h : classify0 d = some i) : encode i = 0x0#4 ++ d.nnn := by
  unfold classify0 at h
  split_ifs at h with hcls hret <;> cases h
  · rw [hcls]; rfl
  · rw [hret]; rfl

theorem classifyN0_eq_some {d : Fields} {i j : Instr} (h : classifyN0 d j = some i) : i = j ∧ d.n = 0#4 := by
  unfold classifyN0 at h
  split_ifs at h with hn
  cases h
  exact ⟨rfl, hn⟩

theorem encode_of_classify8 {d : Fields} {i : Instr} (h : classify8 d = some i) :
    encode i = 0x8#4 ++ (d.x ++ (d.y ++ d.n)) := by
  unfold classify8 at h
  split at h <;> cases h
  all_goals
    rename_i hn
    rw [eq_ofNat_of_toNat_eq hn]; rfl

theorem encode_of_classifyE {d : Fields} {i : Instr} (h : classifyE d = some i) :
    encode i = 0xE#4 ++ (d.x ++ d.kk) := by
  unfold classifyE at h
  split at h <;> cases h
  all_goals
    rename_i hkk
    rw [eq_ofNat_of_toNat_eq hkk]; rfl

theorem encode_of_classifyF {d : Fields} {i : Instr} (h : classifyF d = some i) :
    encode i = 0xF#4 ++ (d.x ++ d.kk) := by
  unfold classifyF at h
  split at h <;> cases h
  all_goals
    rename_i hkk
    rw [eq_ofNat_of_toNat_eq hkk]; rfl

/-- What the classifier answers on the fields of a word encodes to that word, which is its family and the fields under it
however these are grouped. -/
theorem encode_of_classifyFields {d : Fields} {w : Word} {i : Instr} (hnnn : w = d.family ++ d.nnn)
    (hxkk : w = d.family ++ (d.x ++ d.kk)) (hxyn : w = d.family ++ (d.x ++ (d.y ++ d.n)))
    (h : classifyFields d = some i) : encode i = w := by
  unfold classifyFields at h
  split at h
  case h_1 hf => rw [hnnn, eq_ofNat_of_toNat_eq hf, encode_of_classify0 h]
  case h_2 hf | h_3 hf | h_11 hf | h_12 hf => cases h; rw [hnnn, eq_ofNat_of_toNat_eq hf]; rfl
  case h_4 hf | h_5 hf | h_7 hf | h_8 hf | h_13 hf => cases h; rw [hxkk, eq_ofNat_of_toNat_eq hf]; rfl
  case h_6 hf | h_10 hf =>
    obtain ⟨rfl, hn⟩ := classifyN0_eq_some h
    rw [hxyn, eq_ofNat_of_toNat_eq hf, hn]; rfl
  case h_9 hf => rw [hxyn, eq_ofNat_of_toNat_eq hf, encode_of_classify8 h]
  case h_14 hf => cases h; rw [hxyn, eq_ofNat_of_toNat_eq hf]; rfl
  case h_15 hf => rw [hxkk, eq_ofNat_of_toNat_eq hf, encode_of_classifyE h]
  case h_16 =>
    have hf : d.family.toNat = 0xF := by simp only [imp_false] at *; omega
    rw [hxkk, eq_ofNat_of_toNat_eq hf, encode_of_classifyF h]

/-- Settles O7: the classifier's answer encodes to the word put together from the split fields, which is the word. -/
theorem encodeOfDecode : Obligations.EncodeOfDecode :=
  fun w _ h => encode_of_classifyFields (word_eq_nnn w) (word_eq_xkk w) (word_eq_ofNibbles w) h

/-! ### The rows of the opcode map -/

/-- The encoding of an instruction matches the row that carries its mnemonic. -/
theorem encode_matches_row : ∀ i, Laws.EncodeRow.Statement i
  | .cls => Laws.EncodeRow.cls
  | .ret => Laws.EncodeRow.ret
  | .jp _ => Laws.EncodeRow.jp _
  | .call _ => Laws.EncodeRow.call _
  | .seImm _ _ => Laws.EncodeRow.seImm _ _
  | .sneImm _ _ => Laws.EncodeRow.sneImm _ _
  | .seReg _ _ => Laws.EncodeRow.seReg _ _
  | .ldImm _ _ => Laws.EncodeRow.ldImm _ _
  | .addImm _ _ => Laws.EncodeRow.addImm _ _
  | .ldReg _ _ => Laws.EncodeRow.ldReg _ _
  | .orReg _ _ => Laws.EncodeRow.orReg _ _
  | .andReg _ _ => Laws.EncodeRow.andReg _ _
  | .xorReg _ _ => Laws.EncodeRow.xorReg _ _
  | .addReg _ _ => Laws.EncodeRow.addReg _ _
  | .sub _ _ => Laws.EncodeRow.sub _ _
  | .shr _ _ => Laws.EncodeRow.shr _ _
  | .subn _ _ => Laws.EncodeRow.subn _ _
  | .shl _ _ => Laws.EncodeRow.shl _ _
  | .sneReg _ _ => Laws.EncodeRow.sneReg _ _
  | .ldI _ => Laws.EncodeRow.ldI _
  | .jpV0 _ => Laws.EncodeRow.jpV0 _
  | .rnd _ _ => Laws.EncodeRow.rnd _ _
  | .drw _ _ _ => Laws.EncodeRow.drw _ _ _
  | .skp _ => Laws.EncodeRow.skp _
  | .sknp _ => Laws.EncodeRow.sknp _
  | .ldVxDt _ => Laws.EncodeRow.ldVxDt _
  | .ldVxK _ => Laws.EncodeRow.ldVxK _
  | .ldDtVx _ => Laws.EncodeRow.ldDtVx _
  | .ldStVx _ => Laws.EncodeRow.ldStVx _
  | .addIVx _ => Laws.EncodeRow.addIVx _
  | .ldFVx _ => Laws.EncodeRow.ldFVx _
  | .ldBVx _ => Laws.EncodeRow.ldBVx _
  | .ldMemVx _ => Laws.EncodeRow.ldMemVx _
  | .ldVxMem _ => Laws.EncodeRow.ldVxMem _

/-- Every word of the row decodes to an instruction with the row's mnemonic. -/
def OpRow.Decodes (r : OpRow) : Prop :=
  ∀ w, r.Matches w → (decodeWord w).map Instr.mnemonic = some r.mnemonic

theorem decodes_FFFF {v : Word} {name : String} (h : (decodeWord v).map Instr.mnemonic = some name := by decide) :
    OpRow.Decodes ⟨0xFFFF, v, name⟩ := by
  intro w hw
  obtain rfl : w = v := (mask_FFFF w).symm.trans hw
  exact h

theorem decodes_F000 (f : Nibble) {name : String}
    (h : ∀ x y n kk nnn, (classifyFields ⟨f, x, y, n, kk, nnn⟩).map Instr.mnemonic = some name := by intros; rfl) :
    OpRow.Decodes ⟨0xF000, ofNibbles f 0 0 0, name⟩ := by
  intro w hw
  obtain rfl := (mask_F000 w f).1 hw
  exact h ..

theorem decodes_F00F (f n : Nibble) {name : String}
    (h : ∀ x y kk nnn, (classifyFields ⟨f, x, y, n, kk, nnn⟩).map Instr.mnemonic = some name := by intros; rfl) :
    OpRow.Decodes ⟨0xF00F, ofNibbles f 0 0 n, name⟩ := by
  intro w hw
  obtain ⟨rfl, rfl⟩ := (mask_F00F w f n).1 hw
  exact h ..

theorem decodes_F0FF (f y n : Nibble) {name : String}
    (h : ∀ x y' n' nnn, (classifyFields ⟨f, x, y', n', y ++ n, nnn⟩).map Instr.mnemonic = some name := by intros; rfl) :
    OpRow.Decodes ⟨0xF0FF, ofNibbles f 0 y n, name⟩ := by
  intro w hw
  obtain ⟨rfl, hkk⟩ := (mask_F0FF w f y n).1 hw
  unfold decodeWord
  have := h (split w).x (split w).y (split w).n (split w).nnn
  rwa [← hkk] at this

theorem opcodeMap_decodes : ∀ r ∈ opcodeMap, r.Decodes :=
  List.forall_iff_forall_mem.1
    ⟨decodes_FFFF, decodes_FFFF, decodes_F000 1, decodes_F000 2, decodes_F000 3, decodes_F000 4, decodes_F00F 5 0,
      decodes_F000 6, decodes_F000 7, decodes_F00F 8 0, decodes_F00F 8 1, decodes_F00F 8 2, decodes_F00F 8 3,
      decodes_F00F 8 4, decodes_F00F 8 5, decodes_F00F 8 6, decodes_F00F 8 7, decodes_F00F 8 0xE, decodes_F00F 9 0,
      decodes_F000 0xA, decodes_F000 0xB, decodes_F000 0xC, decodes_F000 0xD, decodes_F0FF 0xE 9 0xE,
      decodes_F0FF 0xE 0xA 1, decodes_F0FF 0xF 0 7, decodes_F0FF 0xF 0 0xA, decodes_F0FF 0xF 1 5,
      decodes_F0FF 0xF 1 8, decodes_F0FF 0xF 1 0xE, decodes_F0FF 0xF 2 9, decodes_F0FF 0xF 3 3,
      decodes_F0FF 0xF 5 5, decodes_F0FF 0xF 6 5⟩

/-- A word that decodes matches the row of its instruction. -/
theorem matches_row_of_decodeWord {w : Word} {i : Instr} (h : decodeWord w = some i) :
    ∃ r ∈ opcodeMap, r.mnemonic = i.mnemonic ∧ r.Matches w :=
  encodeOfDecode w i h ▸ encode_matches_row i

theorem row_eq_of_mnemonic_eq : ∀ r ∈ opcodeMap, ∀ q ∈ opcodeMap, r.mnemonic = q.mnemonic → r = q := by
  decide

/-- Settles O5: a word of a row decodes under the row's mnemonic, a word that decodes lies in the row of its instruction,
and a mnemonic names one row. -/
theorem decoderFollowsOpcodeMap : Obligations.DecoderFollowsOpcodeMap := by
  refine ⟨fun w r hr => ⟨opcodeMap_decodes r hr w, fun h => ?_⟩, fun w => ⟨fun h r hr hw => ?_, fun h => ?_⟩,
    fun w r hr q hq hrw hqw => ?_⟩
  · obtain ⟨i, hi, hname⟩ := Option.map_eq_some_iff.1 h
    obtain ⟨q, hq, hqname, hqw⟩ := matches_row_of_decodeWord hi
    rwa [row_eq_of_mnemonic_eq r hr q hq (hname.symm.trans hqname.symm)]
  · have := opcodeMap_decodes r hr w hw
    rw [h] at this
    cases this
  · refine Option.eq_none_iff_forall_ne_some.2 fun i hi => ?_
    obtain ⟨r, hr, -, hw⟩ := matches_row_of_decodeWord hi
    exact h r hr hw
  · have hname := (opcodeMap_decodes r hr w hrw).symm.trans (opcodeMap_decodes q hq w hqw)
    exact row_eq_of_mnemonic_eq r hr q hq (Option.some.inj hname)

/-! ### The splitter's fields and sample words -/

/-- Settles O4: a field's number is the word's, shifted down and cut to the field's width; the family needs no cut. -/
theorem splitterFields : Obligations.SplitterFields := by
  intro w
  simp only [split, BitVec.extractLsb'_toNat, Nat.shiftRight_eq_div_pow, Nat.reducePow, Nat.div_one, and_true]
  exact Nat.mod_eq_of_lt (by omega)

/-- Settles O8: twelve decodings by computation. -/
theorem sampleWordsDecode : Obligations.SampleWordsDecode := by
  unfold Obligations.SampleWordsDecode
  decide

end Sys2Proof
end


section
/-! SUPPORT. What one step does in each of its cases, with its result, and what ends it: the timer phase and the next draw
(40_step_sequencer.md R74 to R84; 60_exceptions.md R130, R135, R141). -/
namespace Sys2Proof.Machine

/-! ### A step of a running block, case by case -/

/-- A fetch that fails halts the block, and no word is recorded (R74, R82). -/
theorem runStep_of_fetch_error {s : State} {f : Fault} (hf : fetch s = .error f) :
    runStep s = .next (haltStep s f none) := by
  simp only [runStep, hf]

/-- A fetched word that is no instruction halts the block (R77). -/
theorem runStep_of_decode_none {s : State} {w : Word} (hw : Fetches s w) (hd : decodeWord w = none) :
    runStep s = .next (haltStep s (.decodeError w) (some w)) := by
  simp only [runStep, (fetch_eq_ok_iff s w).2 hw, hd]

/-- An instruction that faults halts the block (R82). -/
theorem runStep_of_exec_fault {s : State} {w : Word} {i : Instr} {f : Fault} (hw : Fetches s w)
    (hd : decodeWord w = some i) (hx : exec i (advance s) = .fault f) : runStep s = .next (haltStep s f (some w)) := by
  simp only [runStep, (fetch_eq_ok_iff s w).2 hw, hd, hx]

/-- An instruction that completes is followed by the end of the step (R79, R81). -/
theorem runStep_of_exec_next {s t : State} {w : Word} {i : Instr} (hw : Fetches s w) (hd : decodeWord w = some i)
    (hx : exec i (advance s) = .next t) : runStep s = .next (endStep t, resultOf i s) := by
  simp only [runStep, (fetch_eq_ok_iff s w).2 hw, hd, hx]

/-- The step of a running block is never refused and never a terminal fault. -/
theorem exists_runStep_eq_next (s : State) : ∃ r, runStep s = .next r := by
  obtain ⟨f, -, e⟩ | ⟨w, -, -, e⟩ | ⟨w, i, f, -, -, -, -, e⟩ | ⟨w, i, t, -, -, -, -, e⟩ := runStep_cases s <;>
    exact ⟨_, e⟩

/-- Settles O14: the step of a running block is `runStep`, which always answers a next state. -/
theorem runningBlockAlwaysSteps : Obligations.RunningBlockAlwaysSteps := by
  intro s hrun
  obtain ⟨r, hr⟩ := exists_runStep_eq_next s
  exact ⟨r.1, step_running hrun hr⟩

/-- Settles O9: the instruction completes or faults, and the step is the one of that case. -/
theorem stepRunsDecodedInstruction : Obligations.StepRunsDecodedInstruction := by
  intro s w i hrun hw hd
  rcases exec_cases i (s.setPC (s.pc + 2)) with ⟨f, -, hx⟩ | ⟨-, t, hx⟩ <;> rw [hx]
  · exact step_running hrun (runStep_of_exec_fault hw hd hx)
  · exact step_running hrun (runStep_of_exec_next hw hd hx)

/-- Settles O10: `step` and `stepResult` look at `STATUS` before any phase. -/
theorem haltedBlockTakesNoStep : Obligations.HaltedBlockTakesNoStep := by
  intro s f hs
  refine ⟨fun t ht => ?_, step_halted hs, by simp only [stepResult, hs]⟩
  rw [step_halted hs] at ht
  cases ht

/-- Settles O11: the two ways a fetch fails, and the word it reads otherwise. -/
theorem badFetchHalts : Obligations.BadFetchHalts := by
  intro s hrun
  refine ⟨fun hodd => ?_, fun heven hout => ?_, fun heven hin => ?_⟩
  · exact step_running hrun (runStep_of_fetch_error (fetch_odd hodd))
  · exact step_running hrun (runStep_of_fetch_error (fetch_outside heven hout))
  · rcases fetch_cases s with ⟨hodd, -⟩ | ⟨-, hout, -⟩ | hw
    · omega
    · omega
    · exact hw

/-- Settles O12: the decoder answers nothing exactly where no row of the opcode map matches. -/
theorem unknownWordHalts : Obligations.UnknownWordHalts := by
  intro s w hrun hw hrow
  obtain ⟨-, hnone, -⟩ := decoderFollowsOpcodeMap
  have hstep := runStep_of_decode_none hw ((hnone w).2 hrow)
  exact ⟨step_running hrun hstep, stepResult_running hrun hstep⟩

/-! ### The result of a step (R80) -/

theorem runsInstr_iff_eq {s : State} {i j : Instr} (h : RunsInstr s i) : RunsInstr s j ↔ i = j :=
  ⟨runsInstr_unique h, fun e => e ▸ h⟩

/-- `step_cases` with the result: the block halts, and then an instruction it was running has raised its own fault, or it
completes the instruction with that instruction's result. -/
theorem step_result_cases {s t : State} (h : step s = .next t) :
    (∃ f w, t = takeFault s f w ∧ stepResult s = some (.halted ⟨f, s.pc, w⟩) ∧
      ∀ i, RunsInstr s i → ownFault (advance s) i = some f) ∨
    ∃ i u, RunsInstr s i ∧ exec i (advance s) = .next u ∧ t = endStep u ∧ stepResult s = some (resultOf i s) := by
  obtain ⟨hrun, -⟩ := step_cases h
  obtain ⟨f, hf, e⟩ | ⟨w, hw, hd, e⟩ | ⟨w, i, f, hw, hd, ho, -, e⟩ | ⟨w, i, u, hw, hd, -, hx, e⟩ := runStep_cases s <;>
    rw [step_running hrun e] at h <;> cases h
  · refine .inl ⟨f, none, rfl, stepResult_running hrun e, fun i hi => ?_⟩
    obtain ⟨-, w, hw, -⟩ := hi
    rw [(fetch_eq_ok_iff s w).2 hw] at hf
    cases hf
  · refine .inl ⟨_, some w, rfl, stepResult_running hrun e, fun i hi => ?_⟩
    obtain ⟨-, w', hw', hd'⟩ := hi
    rw [fetches_unique hw' hw, hd] at hd'
    cases hd'
  · refine .inl ⟨f, some w, rfl, stepResult_running hrun e, fun j hj => ?_⟩
    rwa [runsInstr_unique hj ⟨hrun, w, hw, hd⟩]
  · exact .inr ⟨i, u, ⟨hrun, w, hw, hd⟩, hx, rfl, stepResult_running hrun e⟩

/-- An instruction that completes is a waiting `LD Vx, K` or goes on. -/
theorem resultOf_cases (i : Instr) (s : State) :
    (∃ x, i = .ldVxK x ∧ s.keyAny = false ∧ resultOf i s = .waitingForKey x) ∨
      ¬ (s.keyAny = false ∧ ∃ x, i = .ldVxK x) ∧ resultOf i s = .continues := by
  cases i with
  | ldVxK x => cases hk : s.keyAny <;> simp [resultOf, hk]
  | _ => exact .inr ⟨nofun, rfl⟩

/-- Settles O58: the step halts, where no `LD Vx, K` runs because it has no fault of its own, or waits, or goes on. -/
theorem stepResultReportsWaiting : Obligations.StepResultReportsWaiting := by
  intro s t hrun h
  obtain ⟨f, w, rfl, hres, hown⟩ | ⟨i, u, hr, hx, rfl, hres⟩ := step_result_cases h
  · have hnowait : ∀ x, ¬ RunsInstr s (.ldVxK x) := fun x hx => nomatch hown _ hx
    simp [hres, hnowait, takeFault]
  · have hstatus : (endStep u).status = .running := (endStep_status u).trans ((exec_frame hx).status.trans hrun)
    simp only [hres, hstatus, runsInstr_iff_eq hr]
    obtain ⟨x, rfl, hkey, e⟩ | ⟨hnowait, e⟩ := resultOf_cases i s
    · simp [e, hkey]
    · refine ⟨fun x => ?_, by simp [e], by simp only [e, hnowait, not_false_eq_true, and_self]⟩
      have : ¬ (i = .ldVxK x ∧ s.keyAny = false) := fun ⟨hi, hkey⟩ => hnowait ⟨hkey, x, hi⟩
      simp [e, this]

/-! ### The timers and the draw at the end of a step (R79, R81) -/

theorem changesOf_dt {s : State} {i : Instr} (h : (changesOf s i).dt) : ∃ x, i = .ldDtVx x := by
  cases i with
  | ldDtVx x => exact ⟨x, rfl⟩
  | _ => exact h.elim

theorem changesOf_st {s : State} {i : Instr} (h : (changesOf s i).st) : ∃ x, i = .ldStVx x := by
  cases i with
  | ldStVx x => exact ⟨x, rfl⟩
  | _ => exact h.elim

theorem endStep_dt (s : State) :
    (endStep s).dt = if s.params.timerCoupling = .perStep then countDown s.dt else s.dt := by rw [endStep_eq]
theorem endStep_st (s : State) :
    (endStep s).st = if s.params.timerCoupling = .perStep then countDown s.st else s.st := by rw [endStep_eq]
@[simp] theorem endStep_randIn (s : State) : (endStep s).randIn = s.randIn.tail := by rw [endStep_eq]
@[simp] theorem endStep_draws (s : State) : (endStep s).draws = s.draws + 1 := by rw [endStep_eq]

/-- Settles O25: only the two timer instructions write a timer, and the end of the step counts it down with `PerStep`. -/
theorem timersCountEveryStep : Obligations.TimersCountEveryStep := by
  intro s t i hr h hrun
  obtain ⟨u, hx, rfl⟩ := step_runs_exec hr h hrun
  have frame := exec_frame hx
  have hparams : u.params = s.params := frame.params
  refine ⟨u, hx, fun hi => ?_, fun hi => ?_, fun hc => ?_, fun hc => ?_⟩
  · exact frame.dt fun hdt => (changesOf_dt hdt).elim hi
  · exact frame.st fun hst => (changesOf_st hst).elim hi
  · simp [endStep_dt, endStep_st, hparams, hc, countDown_toNat]
  · simp [endStep_dt, endStep_st, hparams, hc]

/-- Settles O45: no instruction writes the Random port, and the end of a step moves it on by one draw. -/
theorem eachStepHasAFreshDraw : Obligations.EachStepHasAFreshDraw := by
  refine ⟨fun s t h hrun => ?_, fun s b hempty => ?_, fun s b rest hs => rand8_cons hs⟩
  · obtain ⟨-, ⟨f, w, rfl⟩ | ⟨i, u, -, hx, rfl⟩⟩ := step_cases h
    · cases hrun
    · have frame := exec_frame hx
      rw [endStep_randIn, endStep_draws, frame.randIn, frame.draws]
      exact ⟨rfl, rfl⟩
  · exact rand8_cons (rest := []) (by simp [supplyDraw, hempty])

end Sys2Proof.Machine
end

section
/-! SUPPORT. The display instructions: what a completed draw leaves in the cells and in VF (41_display.md R86 to R90;
20_memory.md R53). -/
namespace Sys2Proof.Machine

/-! ### The checked access and the fixed words -/

/-- The address a failed range check reports is the lowest one out of range (R53). -/
theorem lowestOutOfRange_max {base len : Nat} (hlen : len ≠ 0) (hout : memSize < base + len) :
    LowestOutOfRange base len (max base memSize) := by
  have hsize : memSize = 0x1000 := rfl
  refine ⟨?_, ?_, ?_, fun b hlo hhi => ?_⟩ <;> omega

theorem withRange_of_inRange {base len : Nat} (h : len = 0 ∨ base + len ≤ memSize) (k : Out) :
    withRange base len k = k := by
  rcases h with rfl | h
  · exact withRange_zero base k
  · exact withRange_ok h k

theorem encodedAs_FFFF {v : Word} {i : Instr} (h : decodeWord v = some i) : EncodedAs 0xFFFF v fun _ => i := by
  intro w hw
  obtain rfl : w = v := (mask_FFFF w).symm.trans hw
  exact h

/-- Settles O28: the meaning writes the clear framebuffer and completes. -/
theorem clsClearsEveryCell : Obligations.ClsClearsEveryCell :=
  ⟨encodedAs_FFFF (by decide), fun s => ⟨s.setFB fbClear, rfl, fbCell_fbClear, frame_setFB trivial s fbClear⟩⟩

/-! ### One draw -/

/-- The framebuffer and the collision flag the sprite of `DRW Vx, Vy, n` gives in `s` (R87). -/
def drawSprite (s : State) (x y n : Nibble) : FrameBuffer × Bool :=
  drawRows (originX (s.getV x)) (originY (s.getV y)) (s.loadBytes s.i.toNat n.toNat) (s.fb, false)

/-- A set bit of the sprite lies on a set cell of the grid (R87, R89). -/
def Collides (s : State) (x y n : Nibble) : Prop :=
  ∃ cx cy, cx < 64 ∧ cy < 32 ∧ SpriteSets s x y n cx cy ∧ fbCell s.fb cx cy = true

theorem exec_drw (x y n : Nibble) (s : State) : exec (.drw x y n) s =
    withRange s.i.toNat n.toNat (.next ((s.setFB (drawSprite s x y n).1).setVF (drawSprite s x y n).2)) := rfl

/-- A draw that completes has written the framebuffer and VF (R87). -/
theorem exec_drw_next {x y n : Nibble} {s t : State} (h : exec (.drw x y n) s = .next t) :
    t = (s.setFB (drawSprite s x y n).1).setVF (drawSprite s x y n).2 := by
  rw [exec_drw] at h
  cases withRange_next h
  rfl

/-- The rows loaded from memory set the bits that `SpriteSets` names (R88). -/
theorem onSprite_loadBytes (s : State) (x y n : Nibble) (cx cy : Nat) :
    onSprite (s.loadBytes s.i.toNat n.toNat) (originX (s.getV x)) (originY (s.getV y)) cx cy ↔
      SpriteSets s x y n cx cy := by
  simp only [onSprite, SpriteSets, spriteBit, originX, originY, List.getElem?_eq_some_iff, loadBytes_length,
    loadBytes_getElem]
  constructor
  · rintro ⟨hx, hx', hy, _, ⟨hrow, rfl⟩, hbit⟩
    exact ⟨hx, hx', hy, by omega, hbit⟩
  · rintro ⟨hx, hx', hy, hy', hbit⟩
    exact ⟨hx, hx', hy, _, ⟨by omega, rfl⟩, hbit⟩

theorem drawSprite_cell (s : State) (x y n : Nibble) {cx cy : Nat} (hx : cx < 64) (hy : cy < 32) :
    fbCell (drawSprite s x y n).1 cx cy = true ↔ (fbCell s.fb cx cy = true ↔ ¬ SpriteSets s x y n cx cy) := by
  rw [drawSprite, drawRows_cell, onSprite_loadBytes]
  simp only [hx, hy, true_and]

/-- A cell that reads as set is on the grid, so a clipped sprite bit does not collide (R89). -/
theorem drawSprite_collision (s : State) (x y n : Nibble) : (drawSprite s x y n).2 = true ↔ Collides s x y n := by
  rw [drawSprite, drawRows_col]
  simp only [onSprite_loadBytes, Bool.false_eq_true, false_or]
  constructor
  · rintro ⟨cx, cy, hset, hcell⟩
    have hgrid : cx < 64 ∧ cy < 32 := by
      by_contra hout
      rw [fbCell_outside s.fb hout] at hcell
      cases hcell
    exact ⟨cx, cy, hgrid.1, hgrid.2, hset, hcell⟩
  · rintro ⟨cx, cy, -, -, hset, hcell⟩
    exact ⟨cx, cy, hset, hcell⟩

theorem flagByte_eq_one_iff (c : Bool) : flagByte c = 1 ↔ c = true := by cases c <;> decide

theorem flagByte_eq_zero_iff (c : Bool) : flagByte c = 0 ↔ ¬ c = true := by cases c <;> decide

section
variable {x y n : Nibble} {s t : State} (h : exec (.drw x y n) s = .next t)
include h

theorem drw_cell {cx cy : Nat} (hx : cx < 64) (hy : cy < 32) :
    fbCell t.fb cx cy = true ↔ (fbCell s.fb cx cy = true ↔ ¬ SpriteSets s x y n cx cy) := by
  obtain rfl := exec_drw_next h
  exact drawSprite_cell s x y n hx hy

theorem drw_vf : t.getV 15 = flagByte (drawSprite s x y n).2 := by
  obtain rfl := exec_drw_next h
  exact getV_setV_same _ vf _

theorem drw_vf_eq_one_iff : t.getV 15 = 1 ↔ Collides s x y n := by
  rw [drw_vf h, flagByte_eq_one_iff, drawSprite_collision]

theorem drw_vf_eq_zero_iff : t.getV 15 = 0 ↔ ¬ Collides s x y n := by
  rw [drw_vf h, flagByte_eq_zero_iff, drawSprite_collision]

/-- A draw with neither operand in VF leaves its own sprite as it was: it writes no memory, no `I` and no operand. -/
theorem spriteSets_after_drw (hx : x ≠ 15) (hy : y ≠ 15) (cx cy : Nat) :
    SpriteSets t x y n cx cy ↔ SpriteSets s x y n cx cy := by
  have frame := exec_frame h
  have hvx : t.getV x = s.getV x := frame.v x hx
  have hvy : t.getV y = s.getV y := frame.v y hy
  have hi : t.i = s.i := frame.i fun hc => hc
  have hmem (a : Nat) : t.byteAt a = s.byteAt a := frame.mem a fun hc => hc
  simp only [SpriteSets, hvx, hvy, hi, hmem]

end

/-- Settles O29: the cells and the flag of the sprite drawn row by row, and the range check before it. -/
theorem drwXorsSpriteAndSetsVF : Obligations.DrwXorsSpriteAndSetsVF := by
  refine ⟨encodedAs_F000 (f := 0xD) ?_, fun x y n s => ⟨fun hin => ?_, fun hn hout => ?_⟩⟩
  · rintro ⟨_, dx, dy, dn, kk, nnn⟩ rfl
    rfl
  · have hrange : n.toNat = 0 ∨ s.i.toNat + n.toNat ≤ memSize := hin.imp_left (congrArg BitVec.toNat)
    obtain ⟨t, h⟩ : ∃ t, exec (.drw x y n) s = .next t := ⟨_, withRange_of_inRange hrange _⟩
    refine ⟨t, h, fun cx cy hx hy => drw_cell h hx hy, (drw_vf_eq_one_iff h).2, fun hclear => ?_, exec_frame h⟩
    refine (drw_vf_eq_zero_iff h).2 ?_
    rintro ⟨cx, cy, hx, hy, hset, hcell⟩
    rw [hclear cx cy hx hy hset] at hcell
    cases hcell
  · have hlen : n.toNat ≠ 0 := fun e => hn (BitVec.eq_of_toNat_eq e)
    exact ⟨_, lowestOutOfRange_max hlen hout, withRange_out hlen hout _⟩

/-- Settles O30: the second draw flips the same cells back, and it meets a set cell where the first met a clear one. -/
theorem drawTwiceRestoresFramebuffer : Obligations.DrawTwiceRestoresFramebuffer := by
  intro x y n s t u hx hy ht hu
  have hsprite := spriteSets_after_drw ht hx hy
  constructor
  · refine fb_ext fun cx cy hcx hcy => Bool.eq_iff_iff.2 ?_
    rw [drw_cell hu hcx hcy, hsprite, drw_cell ht hcx hcy]
    tauto
  · have hflip {cx cy : Nat} (hcx : cx < 64) (hcy : cy < 32) (hset : SpriteSets s x y n cx cy) :
        fbCell t.fb cx cy = true ↔ fbCell s.fb cx cy = false := by
      simp only [drw_cell ht hcx hcy, hset, not_true, iff_false, Bool.not_eq_true]
    rw [drw_vf_eq_one_iff hu]
    constructor
    · rintro ⟨cx, cy, hcx, hcy, hset, hcell⟩
      rw [hsprite] at hset
      exact ⟨cx, cy, hcx, hcy, hset, (hflip hcx hcy hset).1 hcell⟩
    · rintro ⟨cx, cy, hcx, hcy, hset, hcell⟩
      exact ⟨cx, cy, hcx, hcy, (hsprite cx cy).2 hset, (hflip hcx hcy hset).2 hcell⟩

end Sys2Proof.Machine
end

section
/-! SUPPORT. The control transfers: the words of their rows, what each answers in every state, and a call with its return
(42_control_flow.md R91 to R98; 60_exceptions.md R131, R133). -/
namespace Sys2Proof.Machine

/-! ### Rows of the opcode map, from the classifier's answer -/

/-- A row of the mask `F000`, where the classifier's answer is read off the family (R65). -/
theorem encodedAs_family (f : Nibble) {build : Fields → Instr}
    (h : ∀ x y n kk nnn, classifyFields ⟨f, x, y, n, kk, nnn⟩ = some (build ⟨f, x, y, n, kk, nnn⟩) := by intros; rfl) :
    EncodedAs 0xF000 (ofNibbles f 0 0 0) build :=
  encodedAs_F000 fun _ hf => by obtain rfl := hf; exact h ..

/-- A row of the mask `F00F`, where it is read off the family and `n` (R65). -/
theorem encodedAs_family_n (f n : Nibble) {build : Fields → Instr}
    (h : ∀ x y kk nnn, classifyFields ⟨f, x, y, n, kk, nnn⟩ = some (build ⟨f, x, y, n, kk, nnn⟩) := by intros; rfl) :
    EncodedAs 0xF00F (ofNibbles f 0 0 n) build :=
  encodedAs_F00F fun _ hf hn => by obtain rfl := hf; obtain rfl := hn; exact h ..

/-- In families 5 and 9 an `n` other than 0 is no instruction (R69). -/
theorem classifyFields_eq_none_of_n_ne_zero {d : Fields} (hf : d.family = 5 ∨ d.family = 9) (hn : d.n ≠ 0) :
    classifyFields d = none := by
  obtain ⟨f, x, y, n, kk, nnn⟩ := d
  rcases hf with rfl | rfl <;> exact if_neg hn

/-! ### Targets -/

theorem immAddr_toNat (nnn : Addr12) : (immAddr nnn).toNat = nnn.toNat :=
  BitVec.toNat_setWidth_of_le (by decide)

theorem zextByte_toNat (b : Byte) : (zextByte b).toNat = b.toNat :=
  BitVec.toNat_setWidth_of_le (by decide)

/-- A 12-bit address and a byte add up to less than 2^16 (R98). -/
theorem offsetTarget_toNat (nnn : Addr12) (b : Byte) : (offsetTarget nnn b).toNat = nnn.toNat + b.toNat := by
  rw [offsetTarget, BitVec.toNat_add, immAddr_toNat, zextByte_toNat]
  omega

/-! ### The meanings, case by case -/

theorem exec_ret_cons {s : State} {w : Word} {rest : List Word} (h : s.stack = w :: rest) :
    exec .ret s = .next ((s.setStack rest).setPC w) := by
  change execRet s = _
  simp only [execRet, pop_cons h]

theorem exec_ret_nil {s : State} (h : s.stack = []) : exec .ret s = .fault .stackUnderflow := by
  change execRet s = _
  simp only [execRet, pop_nil h]

theorem exec_call_room {s : State} (h : s.params.stackLimit ≠ some s.stack.length) (nnn : Addr12) :
    exec (.call nnn) s = .next ((s.setStack (s.pc :: s.stack)).setPC (immAddr nnn)) := by
  change execCall nnn s = _
  simp only [execCall, push_ok h]

theorem exec_call_full {s : State} (h : s.params.stackLimit = some s.stack.length) (nnn : Addr12) :
    exec (.call nnn) s = .fault (.stackOverflow s.stack.length) := by
  change execCall nnn s = _
  simp only [execCall, push_full h]

/-- A skip on equality passes over one word where the bytes are equal, and writes nothing but `PC` (R94, R96). -/
theorem skipIf_beq (a b : Byte) (s : State) :
    ∃ t, skipIf (a == b) s = .next t ∧ t.pc = (if a = b then s.pc + 2 else s.pc) ∧ Frame { pc := True } s t :=
  ⟨_, skipIf_eq _ s, by simp only [State.setPC_pc, beq_iff_eq], frame_setPC trivial s _⟩

/-- A skip on inequality passes over one word where the bytes differ, and writes nothing but `PC` (R95, R97). -/
theorem skipIf_bne (a b : Byte) (s : State) :
    ∃ t, skipIf (a != b) s = .next t ∧ t.pc = (if a = b then s.pc else s.pc + 2) ∧ Frame { pc := True } s t :=
  ⟨_, skipIf_eq _ s, by simp only [State.setPC_pc, bne_iff_ne, ne_eq, ite_not], frame_setPC trivial s _⟩

/-! ### The step of an instruction whose outcome is known -/

/-- An instruction that completes is followed by the end of the step (R79, R81). -/
theorem step_of_exec_next {s u : State} {i : Instr} (hr : RunsInstr s i) (hx : exec i (advance s) = .next u) :
    step s = .next (endStep u) := by
  obtain ⟨hrun, w, hw, hd⟩ := hr
  exact step_running hrun (runStep_of_exec_next hw hd hx)

/-- An instruction that faults halts the block, and the recorded word is the one it encodes to (R82). -/
theorem step_of_exec_fault {s : State} {i : Instr} {f : Fault} (hr : RunsInstr s i)
    (hx : exec i (advance s) = .fault f) : step s = .next (takeFault s f (some (encode i))) := by
  obtain ⟨hrun, w, hw, hd⟩ := hr
  obtain rfl : encode i = w := encodeOfDecode w i hd
  exact step_running hrun (runStep_of_exec_fault hw hd hx)

/-- A `CALL` whose step ends running has pushed the address of the word after it, and no register has changed (R93). -/
theorem step_call_next {s t : State} {nnn : Addr12} (hr : RunsInstr s (.call nnn)) (h : step s = .next t)
    (hrun : t.status = .running) : t.stack = (s.pc + 2) :: s.stack ∧ ∀ r, t.getV r = s.getV r := by
  obtain ⟨u, hx, rfl⟩ := step_runs_exec hr h hrun
  obtain ⟨-, rfl⟩ := exec_call_next hx
  exact ⟨endStep_stack _, getV_endStep _⟩

/-- A step of `RET` on a nonempty stack ends running with the top entry in `PC`, and no register has changed (R91). -/
theorem exists_step_ret_of_stack_cons {s : State} {w : Word} {rest : List Word} (hr : RunsInstr s .ret)
    (hs : s.stack = w :: rest) : ∃ t, step s = .next t ∧ t.status = .running ∧ t.pc = w ∧ t.stack = rest ∧
      ∀ r, t.getV r = s.getV r := by
  have hx := exec_ret_cons (s := advance s) hs
  exact ⟨_, step_of_exec_next hr hx, (endStep_status _).trans hr.1, endStep_pc _, endStep_stack _, getV_endStep _⟩

/-! ### The statements -/

/-- Settles O34: the step of `CALL` pushes the address of the word after it, and the step of `RET` pops it. -/
theorem callThenReturn : Obligations.CallThenReturn := by
  intro s t nnn hcall hstep hrun hret
  obtain ⟨hstack, hv⟩ := step_call_next hcall hstep hrun
  obtain ⟨u, hu, hurun, hpc, hrest, hv'⟩ := exists_step_ret_of_stack_cons hret hstack
  exact ⟨u, hu, hurun, hpc, hrest, fun r => (hv' r).trans (hv r)⟩

/-- Settles O31: `RET` pops into `PC`, and on an empty stack its fault is recorded with its own word. -/
theorem retPopsSavedPC : Obligations.RetPopsSavedPC := by
  refine ⟨encodedAs_FFFF (by decide), fun s w rest hs => ?_, fun s hr hs => ?_⟩
  · have hx := exec_ret_cons hs
    exact ⟨_, hx, rfl, rfl, exec_frame hx⟩
  · exact step_of_exec_fault hr (exec_ret_nil (s := advance s) hs)

/-- Settles O32: the zero-extended address is the same number. -/
theorem jpSetsPC : Obligations.JpSetsPC :=
  ⟨encodedAs_family 1, fun nnn s => ⟨s.setPC (immAddr nnn), rfl, immAddr_toNat nnn, frame_setPC trivial s _⟩⟩

/-- Settles O33: the push succeeds exactly where the stack is not at its limit. -/
theorem callPushesReturnAddress : Obligations.CallPushesReturnAddress := by
  refine ⟨encodedAs_family 2, fun nnn s => ⟨fun hroom => ?_, fun l hlimit hlen => ?_⟩⟩
  · have hx := exec_call_room hroom nnn
    exact ⟨_, hx, rfl, immAddr_toNat nnn, exec_frame hx⟩
  · subst hlen
    exact exec_call_full hlimit nnn

/-- Settles O35: both are skips on the comparison of `V[x]` with the immediate. -/
theorem immediateSkips : Obligations.ImmediateSkips :=
  ⟨encodedAs_family 3, encodedAs_family 4, fun x kk s => ⟨skipIf_beq (s.getV x) kk s, skipIf_bne (s.getV x) kk s⟩⟩

/-- Settles O36: both are skips on the comparison of two registers, and `n` is the word's lowest nibble. -/
theorem registerSkips : Obligations.RegisterSkips := by
  refine ⟨encodedAs_family_n 5 0, encodedAs_family_n 9 0, fun w hfamily hn => ?_, fun x y s =>
    ⟨skipIf_beq (s.getV x) (s.getV y) s, skipIf_bne (s.getV x) (s.getV y) s⟩⟩
  obtain ⟨hf, -, -, hlow, -⟩ := splitterFields w
  rw [← hf] at hfamily
  rw [← hlow] at hn
  exact classifyFields_eq_none_of_n_ne_zero (hfamily.imp BitVec.eq_of_toNat_eq BitVec.eq_of_toNat_eq)
    fun e => hn (congrArg BitVec.toNat e)

/-- Settles O37: the sum of a 12-bit address and a byte does not wrap. -/
theorem jpV0AddsV0 : Obligations.JpV0AddsV0 :=
  ⟨encodedAs_family 0xB, fun nnn s =>
    ⟨s.setPC (offsetTarget nnn (s.getV 0)), rfl, offsetTarget_toNat nnn (s.getV 0), frame_setPC trivial s _⟩⟩

end Sys2Proof.Machine
end

section
/-! SUPPORT. The arithmetic, logic and random instructions: what a result with its flag leaves, as numbers and bit by bit, and
that nothing but registers and the draw goes into it (43_arith_logic.md R100 to R115). -/
namespace Sys2Proof.Machine

/-! ### Results and flags as numbers -/

/-- A difference of two bytes is the difference of the numbers modulo 256 (R112). -/
theorem byte_sub_toNat (a b : Byte) : ((a - b).toNat : Int) = (a.toNat - b.toNat : Int) % 256 := by
  have hb : b.toNat < 256 := b.isLt
  rw [BitVec.toNat_sub]
  omega

theorem byte_shiftRight_one_toNat (v : Byte) : (v >>> 1).toNat = v.toNat / 2 := by
  rw [BitVec.toNat_ushiftRight, Nat.shiftRight_eq_div_pow]

theorem byte_shiftLeft_one_toNat (v : Byte) : (v <<< 1).toNat = 2 * v.toNat % 256 := by
  rw [BitVec.toNat_shiftLeft, Nat.shiftLeft_eq, Nat.mul_comm]

theorem flagByte_decide (p : Prop) [Decidable p] : flagByte (decide p) = if p then 1 else 0 := by
  simp only [flagByte, decide_eq_true_eq]

theorem flagByte_shrOut_toNat (v : Byte) : (flagByte (shrOut v)).toNat = v.toNat % 2 := by
  rw [flagByte_toNat, shrOut, BitVec.getLsbD, Nat.toNat_testBit, Nat.pow_zero, Nat.div_one]

/-- Bit 7 is the whole quotient by 128, since a byte is below 256. -/
theorem flagByte_shlOut_toNat (v : Byte) : (flagByte (shlOut v)).toNat = v.toNat / 128 := by
  have hv : v.toNat < 256 := v.isLt
  rw [flagByte_toNat, shlOut, BitVec.getLsbD, Nat.toNat_testBit]
  omega

/-! ### One register written, alone or with its flag -/

/-- A completed write of one register, for a value known bit by bit. -/
theorem exists_next_setV_bits (s : State) (x : Nibble) {b : Byte} {bit : Nat → Bool} (hb : ∀ k, b.getLsbD k = bit k) :
    ∃ t, (.next (s.setV x b) : Out) = .next t ∧ Frame { v := (· = x) } s t ∧ ∀ k, (t.getV x).getLsbD k = bit k :=
  ⟨_, rfl, frame_setV rfl s b, fun k => by rw [getV_setV_same, hb]⟩

/-- The flag is written last: VF holds it whatever the destination is, and another destination keeps its result (R113). -/
theorem resultThenFlag_next (s : State) (x : Nibble) (r : Byte) (c : Bool) :
    ∃ t, resultThenFlag s x r c = .next t ∧ (x ≠ 15 → t.getV x = r) ∧ t.getV 15 = flagByte c ∧
      Frame { v := fun q => q = x ∨ q = 15 } s t := by
  refine ⟨_, resultThenFlag_eq s x r c, fun hx => ?_, ?_, frame_result_flag (Or.inl rfl) (Or.inr rfl) s r c⟩
  · rw [getV_result_flag, if_neg hx, if_pos rfl]
  · rw [getV_result_flag, if_pos rfl]

/-- Both subtractions: minuend `a`, subtrahend `b` (R107, R109). -/
theorem resultThenFlag_sub (s : State) (x : Nibble) (a b : Byte) :
    ∃ t, resultThenFlag s x (a - b) (noBorrow a b) = .next t ∧
      (x ≠ 15 → ((t.getV x).toNat : Int) = (a.toNat - b.toNat : Int) % 256) ∧
      t.getV 15 = (if a.toNat ≥ b.toNat then 1 else 0) ∧ Frame { v := fun q => q = x ∨ q = 15 } s t := by
  obtain ⟨t, h, hx, hf, hframe⟩ := resultThenFlag_next s x (a - b) (noBorrow a b)
  exact ⟨t, h, fun hne => by rw [hx hne, byte_sub_toNat], hf.trans (flagByte_decide _), hframe⟩

/-! ### What an arithmetic instruction reads and writes (R115) -/

/-- An arithmetic instruction writes one register, and with it VF or not; what it writes is a function of the registers and
the draw alone. -/
theorem exec_arith_cases {i : Instr} (hi : IsArith i) : ∃ (x : Nibble) (result : (Nibble → Byte) → Byte → Byte),
    (∀ s, exec i s = .next (s.setV x (result s.getV s.rand8))) ∨
    ∃ flag : (Nibble → Byte) → Bool, ∀ s, exec i s = .next ((s.setV x (result s.getV s.rand8)).setVF (flag s.getV)) := by
  cases i with
  | ldImm x kk => exact ⟨x, fun _ _ => kk, .inl fun _ => rfl⟩
  | addImm x kk => exact ⟨x, fun v _ => v x + kk, .inl fun _ => rfl⟩
  | ldReg x y => exact ⟨x, fun v _ => v y, .inl fun _ => rfl⟩
  | orReg x y => exact ⟨x, fun v _ => v x ||| v y, .inl fun _ => rfl⟩
  | andReg x y => exact ⟨x, fun v _ => v x &&& v y, .inl fun _ => rfl⟩
  | xorReg x y => exact ⟨x, fun v _ => v x ^^^ v y, .inl fun _ => rfl⟩
  | rnd x kk => exact ⟨x, fun _ draw => draw &&& kk, .inl fun _ => rfl⟩
  | addReg x y => exact ⟨x, fun v _ => v x + v y, .inr ⟨fun v => carryOf (v x) (v y), fun _ => rfl⟩⟩
  | sub x y => exact ⟨x, fun v _ => v x - v y, .inr ⟨fun v => noBorrow (v x) (v y), fun _ => rfl⟩⟩
  | subn x y => exact ⟨x, fun v _ => v y - v x, .inr ⟨fun v => noBorrow (v y) (v x), fun _ => rfl⟩⟩
  | shr x y => exact ⟨x, fun v _ => v x >>> 1, .inr ⟨fun v => shrOut (v x), fun _ => rfl⟩⟩
  | shl x y => exact ⟨x, fun v _ => v x <<< 1, .inr ⟨fun v => shlOut (v x), fun _ => rfl⟩⟩
  | _ => exact hi.elim

/-- An arithmetic instruction completes in every state and changes registers alone. -/
theorem exec_arith_next {i : Instr} (hi : IsArith i) (s : State) :
    ∃ t, exec i s = .next t ∧ Frame { v := fun _ => True } s t := by
  obtain ⟨x, result, hx | ⟨flag, hx⟩⟩ := exec_arith_cases hi
  · exact ⟨_, hx s, frame_setV trivial s _⟩
  · exact ⟨_, hx s, frame_result_flag trivial trivial s _ _⟩

/-- From equal registers and an equal draw an arithmetic instruction leaves equal registers. -/
theorem exec_arith_getV_congr {i : Instr} (hi : IsArith i) {s s' t t' : State} (hv : ∀ r, s'.getV r = s.getV r)
    (hd : s'.rand8 = s.rand8) (h : exec i s = .next t) (h' : exec i s' = .next t') (r : Nibble) :
    t'.getV r = t.getV r := by
  obtain ⟨x, result, hx | ⟨flag, hx⟩⟩ := exec_arith_cases hi
  all_goals
    rw [hx] at h h'
    cases h
    cases h'
  · rw [getV_setV, getV_setV, funext hv, hd]
  · rw [getV_result_flag, getV_result_flag, funext hv, hd]

/-! ### Sequences of skip and arithmetic instructions -/

theorem execAll_cons_next {i : Instr} {l : List Instr} {s t : State} (h : execAll (i :: l) s = .next t) :
    ∃ u, exec i s = .next u ∧ execAll l u = .next t := by
  unfold execAll at h
  cases hx : exec i s with
  | next u => rw [hx] at h; exact ⟨u, rfl, h⟩
  | fault f => rw [hx] at h; cases h
  | refused r => rw [hx] at h; cases h

theorem not_changesOf_fb {i : Instr} (hi : IsArith i ∨ IsSkip i) (s : State) : ¬ (changesOf s i).fb := by
  intro hc
  rcases changesOf_fb hc with rfl | ⟨x, y, n, rfl⟩ <;> exact hi.elim id id

theorem execAll_keeps_fbCell {l : List Instr} (hl : ∀ i ∈ l, IsArith i ∨ IsSkip i) {s t : State}
    (h : execAll l s = .next t) (cx cy : Nat) : fbCell t.fb cx cy = fbCell s.fb cx cy := by
  induction l generalizing s with
  | nil => cases h; rfl
  | cons i l ih =>
    obtain ⟨u, hx, hrest⟩ := execAll_cons_next h
    obtain ⟨hi, hl⟩ := List.forall_mem_cons.1 hl
    exact (ih hl hrest).trans ((exec_frame hx).fb (not_changesOf_fb hi s) cx cy)

/-! ### The statements -/

/-- Settles O42: both are one subtraction with its no-borrow flag, the operands exchanged. -/
theorem subtractSetsNoBorrow : Obligations.SubtractSetsNoBorrow :=
  ⟨encodedAs_family_n 8 5, encodedAs_family_n 8 7, fun x y s =>
    ⟨resultThenFlag_sub s x (s.getV x) (s.getV y), resultThenFlag_sub s x (s.getV y) (s.getV x)⟩⟩

/-- Settles O43: the meaning does not name `y`, and the flag is bit 0, respectively bit 7, of the old value. -/
theorem shiftsByOne : Obligations.ShiftsByOne := by
  refine ⟨encodedAs_family_n 8 6, encodedAs_family_n 8 0xE, fun x y s => ⟨?_, ?_⟩⟩
  · obtain ⟨t, h, hx, hf, hframe⟩ := resultThenFlag_next s x (s.getV x >>> 1) (shrOut (s.getV x))
    exact ⟨t, h, fun _ => h, fun hne => by rw [hx hne, byte_shiftRight_one_toNat],
      by rw [hf, flagByte_shrOut_toNat], hframe⟩
  · obtain ⟨t, h, hx, hf, hframe⟩ := resultThenFlag_next s x (s.getV x <<< 1) (shlOut (s.getV x))
    exact ⟨t, h, fun _ => h, fun hne => by rw [hx hne, byte_shiftLeft_one_toNat],
      by rw [hf, flagByte_shlOut_toNat], hframe⟩

/-- Settles O46: the value written is a function of the registers and the draw, and no skip or arithmetic instruction names
the framebuffer in its frame. -/
theorem arithmeticTouchesOnlyRegisters : Obligations.ArithmeticTouchesOnlyRegisters := by
  refine ⟨fun i hi s => ?_, fun l s t hl h cx cy => ?_⟩
  · obtain ⟨t, h, hframe⟩ := exec_arith_next hi s
    refine ⟨t, h, hframe, fun s' hv hd => ?_⟩
    obtain ⟨t', h', -⟩ := exec_arith_next hi s'
    exact ⟨t', h', exec_arith_getV_congr hi hv hd h h'⟩
  · obtain ⟨u, hcls, hrest⟩ := execAll_cons_next h
    cases hcls
    exact (execAll_keeps_fbCell hl hrest cx cy).trans (fbCell_fbClear cx cy)

/-- Settles O38: both write one register with a value at hand. -/
theorem registerLoads : Obligations.RegisterLoads :=
  ⟨encodedAs_family 6, encodedAs_family_n 8 0, fun x y kk s =>
    ⟨⟨s.setV x kk, rfl, getV_setV_same s x kk, frame_setV rfl s _⟩,
      ⟨s.setV x (s.getV y), rfl, getV_setV_same s x _, frame_setV rfl s _⟩⟩⟩

/-- Settles O39: the byte sum is the sum modulo 256. -/
theorem addImmediateWraps : Obligations.AddImmediateWraps :=
  ⟨encodedAs_family 7, fun x kk s => ⟨s.setV x (s.getV x + kk), rfl, by rw [getV_setV_same, BitVec.toNat_add],
    frame_setV rfl s _⟩⟩

/-- Settles O40: the three operations of bit vectors act on each bit. -/
theorem logicIsBitwise : Obligations.LogicIsBitwise :=
  ⟨encodedAs_family_n 8 1, encodedAs_family_n 8 2, encodedAs_family_n 8 3, fun x _ s =>
    ⟨exists_next_setV_bits s x fun _ => BitVec.getLsbD_or, exists_next_setV_bits s x fun _ => BitVec.getLsbD_and,
      exists_next_setV_bits s x fun _ => BitVec.getLsbD_xor⟩⟩

/-- Settles O41: the byte sum is the sum modulo 256, and the carry is read off the exact sum. -/
theorem addWithCarry : Obligations.AddWithCarry := by
  refine ⟨encodedAs_family_n 8 4, fun x y s => ?_⟩
  obtain ⟨t, h, hx, hf, hframe⟩ := resultThenFlag_next s x (s.getV x + s.getV y) (carryOf (s.getV x) (s.getV y))
  exact ⟨t, h, fun hne => by rw [hx hne, BitVec.toNat_add], hf.trans (flagByte_decide _), hframe⟩

/-- Settles O44: the mask acts on each bit of the draw. -/
theorem rndMasksTheDraw : Obligations.RndMasksTheDraw :=
  ⟨encodedAs_family 0xC, fun x _ s => exists_next_setV_bits s x fun _ => BitVec.getLsbD_and⟩

end Sys2Proof.Machine
end

section
/-! SUPPORT. The address register and memory instructions: index sums as numbers, and what a block store, a block load and
the store of the decimal digits leave in every state (44_index_memory.md R116 to R121; 20_memory.md R53). -/
namespace Sys2Proof.Machine

/-! ### Rows and the failed range check -/

/-- A row of the mask `F0FF`, where the classifier's answer is read off the family and `kk` (R65). -/
theorem encodedAs_family_kk (f y n : Nibble) {build : Fields → Instr}
    (h : ∀ x y' n' nnn, classifyFields ⟨f, x, y', n', y ++ n, nnn⟩ = some (build ⟨f, x, y', n', y ++ n, nnn⟩) := by
      intros; rfl) :
    EncodedAs 0xF0FF (ofNibbles f 0 y n) build :=
  encodedAs_F0FF fun ⟨_, _, _, _, _, _⟩ hf hkk => by obtain rfl := hf; obtain rfl := hkk; exact h ..

/-- An access that leaves memory faults with its lowest address out of range, and does not go on (R53). -/
theorem exists_lowest_fault {base len : Nat} (hlen : len ≠ 0) (hout : memSize < base + len) (k : Out) :
    ∃ a, LowestOutOfRange base len a ∧ withRange base len k = .fault (.memoryOutOfRange a) :=
  ⟨_, lowestOutOfRange_max hlen hout, withRange_out hlen hout k⟩

/-! ### Index sums and decimal digits as numbers -/

theorem indexSum_toNat (i : Word) (b : Byte) : (indexSum i b).toNat = (i.toNat + b.toNat) % 0x10000 := by
  rw [indexSum, BitVec.toNat_add, zextByte_toNat]

/-- The product of 5 and a byte does not wrap, so only the sum with `FONT_BASE` is reduced (R118). -/
theorem glyphAddr_toNat (p : Params) (b : Byte) :
    (glyphAddr p b).toNat = (p.fontBase.toNat + 5 * b.toNat) % 0x10000 := by
  have hfive : (5 * zextByte b).toNat = 5 * b.toNat := by
    have hb : b.toNat < 256 := b.isLt
    rw [BitVec.toNat_mul, zextByte_toNat, show (5 : Word).toNat = 5 from rfl, Nat.mod_eq_of_lt (by omega)]
  rw [glyphAddr, BitVec.toNat_add, hfive]

/-- Each digit fits its byte (R119). -/
theorem bcdDigits_map_toNat (b : Byte) :
    (bcdDigits b).map BitVec.toNat = [b.toNat / 100, b.toNat / 10 % 10, b.toNat % 10] := by
  have fits {d : Nat} (h : d < 256) : (BitVec.ofNat 8 d).toNat = d :=
    (BitVec.toNat_ofNat d 8).trans (Nat.mod_eq_of_lt h)
  simp only [bcdDigits, List.map_cons, List.map_nil]
  rw [fits (by omega), fits (by omega), fits (by omega)]

/-! ### What the three memory instructions do with their range in memory -/

section
variable {x : Nibble} {s : State}

theorem exec_ldMemVx_inRange (hin : s.i.toNat + x.toNat < memSize) :
    exec (.ldMemVx x) s = .next (s.storeBytes s.i.toNat (s.regsUpTo x)) :=
  withRange_ok hin _

theorem exec_ldVxMem_inRange (hin : s.i.toNat + x.toNat < memSize) :
    exec (.ldVxMem x) s = .next (s.loadRegs 0 (s.loadBytes s.i.toNat (blockLen x))) :=
  withRange_ok hin _

theorem exec_ldBVx_inRange (hin : s.i.toNat + 2 < memSize) :
    exec (.ldBVx x) s = .next (s.storeBytes s.i.toNat (bcdDigits (s.getV x))) :=
  withRange_ok hin _

/-- After a block load `V[k]` is `M[I + k]`, for every register of the range (R121). -/
theorem getV_ldVxMem {t : State} (h : exec (.ldVxMem x) s = .next t) {k : Nibble} (hk : k ≤ x) :
    t.getV k = s.byteAt (s.i.toNat + k.toNat) := by
  cases withRange_next h
  have hlt : k.toNat < (s.loadBytes s.i.toNat (blockLen x)).length := by
    rw [loadBytes_length]
    exact Nat.lt_succ_of_le (BitVec.le_def.1 hk)
  rw [getV_loadRegs, if_pos (Nat.zero_le _), Nat.sub_zero, List.getElem?_eq_getElem hlt, loadBytes_getElem,
    Option.getD_some]

/-- In the state `LD B, Vx` leaves, the byte at `I + j` is digit `j` of `V[x]`, the hundreds first (R119). -/
theorem byteAt_storeBytes_bcdDigits (hm : s.MemWf) (hin : s.i.toNat + 2 < memSize) {j : Nat} (hj : j < 3) :
    ((s.storeBytes s.i.toNat (bcdDigits (s.getV x))).byteAt (s.i.toNat + j)).toNat =
      [(s.getV x).toNat / 100, (s.getV x).toNat / 10 % 10, (s.getV x).toNat % 10][j] := by
  have hlt : j < (bcdDigits (s.getV x)).length := hj
  rw [byteAt_storeBytes _ hm hlt hin]
  simp only [← bcdDigits_map_toNat, List.getElem_map]

end

/-! ### The statements -/

/-- Settles O51: in range the registers are copied up from `I`; the check covers the `x + 1` addresses of the range. -/
theorem blockStoreWritesRange : Obligations.BlockStoreWritesRange := by
  refine ⟨encodedAs_family_kk 0xF 5 5, fun x s => ⟨fun hm hin => ?_, fun hout => ?_⟩⟩
  · have hx := exec_ldMemVx_inRange hin
    refine ⟨_, hx, fun k hk => byteAt_ldMemVx hm hx hk, frame_storeBytes ?_ s⟩
    intro a hlo hhi
    rw [regsUpTo_length] at hhi
    exact ⟨hlo, Nat.le_of_lt_succ hhi⟩
  · exact exists_lowest_fault (Nat.succ_ne_zero _) (Nat.lt_succ_of_le hout) _

/-- Settles O52: in range the bytes are copied up from `V[0]`; the check is the one of the block store. -/
theorem blockLoadReadsRange : Obligations.BlockLoadReadsRange := by
  refine ⟨encodedAs_family_kk 0xF 6 5, fun x s => ⟨fun hin => ?_, fun hout => ?_⟩⟩
  · have hx := exec_ldVxMem_inRange hin
    exact ⟨_, hx, fun k hk => getV_ldVxMem hx hk, exec_frame hx⟩
  · exact exists_lowest_fault (Nat.succ_ne_zero _) (Nat.lt_succ_of_le hout) _

/-- Settles O53: neither the store nor the change between writes `I`, so the load reads the bytes the store has left. -/
theorem blockStoreThenLoadIsIdentity : Obligations.BlockStoreThenLoadIsIdentity := by
  intro x s t t' u hm hstore hbetween hload k hk
  have hi : t'.i = s.i := (hbetween.i id).trans ((exec_frame hstore).i id)
  calc u.getV k = t'.byteAt (t'.i.toNat + k.toNat) := getV_ldVxMem hload hk
    _ = t.byteAt (s.i.toNat + k.toNat) := by rw [hi]; exact hbetween.mem _ id
    _ = s.getV k := byteAt_ldMemVx hm hstore hk

/-- Settles O47: the zero-extended address is the same number. -/
theorem ldISetsIndex : Obligations.LdISetsIndex :=
  ⟨encodedAs_family 0xA, fun nnn s => ⟨s.setI (immAddr nnn), rfl, immAddr_toNat nnn, frame_setI trivial s _⟩⟩

/-- Settles O48: the 16-bit sum is the sum modulo 2^16. -/
theorem addIWrapsAtSixteenBits : Obligations.AddIWrapsAtSixteenBits :=
  ⟨encodedAs_family_kk 0xF 1 0xE, fun x s =>
    ⟨s.setI (indexSum s.i (s.getV x)), rfl, indexSum_toNat s.i (s.getV x), frame_setI trivial s _⟩⟩

/-- Settles O49: the glyph address is the sum modulo 2^16. -/
theorem ldFPointsAtGlyph : Obligations.LdFPointsAtGlyph :=
  ⟨encodedAs_family_kk 0xF 2 9, fun x s =>
    ⟨s.setI (glyphAddr s.params (s.getV x)), rfl, glyphAddr_toNat s.params (s.getV x), frame_setI trivial s _⟩⟩

/-- Settles O50: in range the three digits are stored in order; the check covers the three addresses. -/
theorem ldBStoresDecimalDigits : Obligations.LdBStoresDecimalDigits := by
  refine ⟨encodedAs_family_kk 0xF 3 3, fun x s => ⟨fun hm hin => ?_, fun hout => ?_⟩⟩
  · have hx := exec_ldBVx_inRange (x := x) hin
    have hdigit {j : Nat} (hj : j < 3) := byteAt_storeBytes_bcdDigits (x := x) hm hin hj
    exact ⟨_, hx, hdigit (j := 0) (by decide), hdigit (j := 1) (by decide), hdigit (j := 2) (by decide), exec_frame hx⟩
  · exact exists_lowest_fault (by decide) (Nat.lt_succ_of_le hout) _

end Sys2Proof.Machine
end

section
/-! SUPPORT. The timer and key instructions: a wait leaves the state it found, a key skip looks at one key, and the timer
moves copy one byte (45_timers_input.md R122 to R128). -/
namespace Sys2Proof.Machine

/-! ### The wait for a key (R127) -/

section
variable {s : State}

theorem exec_ldVxK_of_noKey (h : s.keyAny = false) (x : Nibble) :
    exec (.ldVxK x) s = .next (s.setPC (s.pc - 2)) := by
  change execLdVxK x s = _
  rw [execLdVxK, h, if_neg Bool.false_ne_true]

theorem exec_ldVxK_of_key (h : s.keyAny = true) (x : Nibble) :
    exec (.ldVxK x) s = .next (s.setV x (s.keyLast.zeroExtend 8)) := by
  change execLdVxK x s = _
  rw [execLdVxK, if_pos h]

/-- After the advance phase a wait sets `PC` back, so it leaves the state the step began with. -/
theorem exec_ldVxK_advance (h : s.keyAny = false) (x : Nibble) : exec (.ldVxK x) (advance s) = .next s := by
  have hpc : (advance s).pc - 2 = s.pc := BitVec.add_sub_cancel s.pc 2
  rw [exec_ldVxK_of_noKey (s := advance s) h, hpc]
  rfl

/-- A waiting step does nothing but end. -/
theorem step_ldVxK_of_noKey {x : Nibble} (hr : RunsInstr s (.ldVxK x)) (h : s.keyAny = false) :
    step s = .next (endStep s) :=
  step_of_exec_next hr (exec_ldVxK_advance h x)

theorem stepResult_ldVxK_of_noKey {x : Nibble} (hr : RunsInstr s (.ldVxK x)) (h : s.keyAny = false) :
    stepResult s = some (.waitingForKey x) := by
  obtain ⟨hwait, -⟩ := stepResultReportsWaiting s (endStep s) hr.1 (step_ldVxK_of_noKey hr h)
  exact (hwait x).2 ⟨hr, h⟩

/-- With `PerStep` the end of a step counts both timers down and stops at 0 (R79, R142). -/
theorem endStep_timers_of_perStep (h : s.params.timerCoupling = .perStep) :
    (endStep s).dt.toNat = s.dt.toNat - 1 ∧ (endStep s).st.toNat = s.st.toNat - 1 := by
  rw [endStep_dt, endStep_st, if_pos h, if_pos h]
  exact ⟨countDown_toNat s.dt, countDown_toNat s.st⟩

end

/-- Settles O57: without a latched key the whole step is its end; with one the zero-extended code is the same number. -/
theorem waitForKey : Obligations.WaitForKey := by
  refine ⟨encodedAs_family_kk 0xF 0 0xA, fun x s hkey => ?_, fun x s hkey => ?_, fun x s hr hkey => ?_⟩
  · exact ⟨_, exec_ldVxK_of_noKey hkey x, rfl, frame_setPC trivial s _⟩
  · refine ⟨_, exec_ldVxK_of_key hkey x, ?_, frame_setV rfl s _⟩
    rw [getV_setV_same]
    exact BitVec.toNat_setWidth_of_le (by decide)
  · exact ⟨endStep s, step_ldVxK_of_noKey hr hkey, (endStep_status s).trans hr.1, endStep_pc s,
      stepResult_ldVxK_of_noKey hr hkey, getV_endStep s, endStep_timers_of_perStep⟩

/-! ### The timer moves and the key skips -/

/-- Settles O55: each writes one register or one timer with a byte at hand. -/
theorem timerMoves : Obligations.TimerMoves :=
  ⟨encodedAs_family_kk 0xF 0 7, encodedAs_family_kk 0xF 1 5, encodedAs_family_kk 0xF 1 8, fun x s =>
    ⟨⟨s.setV x s.dt, rfl, getV_setV_same s x s.dt, frame_setV rfl s _⟩,
      ⟨s.setDT (s.getV x), rfl, rfl, frame_setDT trivial s _⟩,
      ⟨s.setST (s.getV x), rfl, rfl, frame_setST trivial s _⟩⟩⟩

/-- A skip on a pressed key passes over one word where it is pressed, and writes nothing but `PC` (R122). -/
theorem skipIf_pressed (pressed : Bool) (s : State) : ∃ t, skipIf pressed s = .next t ∧
    t.pc = (if pressed = true then s.pc + 2 else s.pc) ∧ Frame { pc := True } s t :=
  ⟨_, skipIf_eq pressed s, rfl, frame_setPC trivial s _⟩

/-- A skip on a key not pressed passes over one word where it is not, and writes nothing but `PC` (R123). -/
theorem skipIf_not_pressed (pressed : Bool) (s : State) : ∃ t, skipIf (!pressed) s = .next t ∧
    t.pc = (if pressed = true then s.pc else s.pc + 2) ∧ Frame { pc := True } s t :=
  ⟨_, skipIf_eq _ s, by cases pressed <;> rfl, frame_setPC trivial s _⟩

theorem exec_skp (x : Nibble) (s : State) :
    exec (.skp x) s = withKey s (s.getV x) fun pressed => skipIf pressed s := rfl

theorem exec_sknp (x : Nibble) (s : State) :
    exec (.sknp x) s = withKey s (s.getV x) fun pressed => skipIf (!pressed) s := rfl

/-- Settles O56: a value that names a key makes both a skip on that key; any other value is the fault of both. -/
theorem keySkips : Obligations.KeySkips := by
  refine ⟨encodedAs_family_kk 0xE 9 0xE, encodedAs_family_kk 0xE 0xA 1, fun x s => ?_⟩
  rw [exec_skp, exec_sknp]
  refine ⟨fun hkey => ?_, fun hbad => ?_⟩
  · rw [withKey_ok hkey, withKey_ok hkey]
    exact ⟨skipIf_pressed _ s, skipIf_not_pressed _ s⟩
  · have hnokey : ¬ (s.getV x).toNat < 16 := Nat.not_lt.2 hbad
    exact ⟨withKey_bad s hnokey _, withKey_bad s hnokey _⟩

end Sys2Proof.Machine
end

section
/-! SUPPORT. The timer decrement with its two uses, and the faults of a running block: what the halted state records, and
what causes the halt (60_exceptions.md R129 to R143; 40_step_sequencer.md R82). -/
namespace Sys2Proof.Machine

/-! ### The timer decrement, its phase and its port -/

theorem frame_timerDecrement (s : State) : Frame { dt := True, st := True } s (timerDecrement s) :=
  frame_trans (frame_setDT trivial s _) (frame_setST trivial _ _)

section
variable {s : State}

theorem timerPhase_of_perStep (h : s.params.timerCoupling = .perStep) : timerPhase s = timerDecrement s := by
  simp only [timerPhase, h]

theorem timerPhase_of_external (h : s.params.timerCoupling = .external) : timerPhase s = s := by
  simp only [timerPhase, h]

theorem timerTick_of_perStep (h : s.params.timerCoupling = .perStep) : timerTick s = none := by
  simp only [timerTick, h]

theorem timerTick_of_external (h : s.params.timerCoupling = .external) (hrun : s.status = .running) :
    timerTick s = some (timerDecrement s) := by
  simp only [timerTick, h, hrun]

end

/-- Settles O24: each timer gets its `countDown`, and the phase and the port are this decrement. -/
theorem timerDecrementCountsBothDown : Obligations.TimerDecrementCountsBothDown := fun s =>
  ⟨countDown_toNat s.dt, countDown_toNat s.st, frame_timerDecrement s, timerPhase_of_perStep, timerTick_of_external⟩

/-- Settles O26: on a running block the tick is the timer decrement. -/
theorem timerTickPort : Obligations.TimerTickPort := fun s =>
  ⟨timerTick_of_perStep, fun hext => ⟨timerPhase_of_external hext, fun hrun =>
    ⟨timerDecrement s, timerTick_of_external hext hrun, countDown_toNat s.dt, countDown_toNat s.st,
      frame_timerDecrement s⟩⟩⟩

/-! ### What a fault records -/

/-- After an instruction that completes, the step ends running: neither `exec` nor the end of a step writes `STATUS`. -/
theorem endStep_running {s u : State} {i : Instr} (hrun : s.status = .running) (hx : exec i (advance s) = .next u) :
    (endStep u).status = .running :=
  (endStep_status u).trans ((exec_frame hx).status.trans hrun)

/-- The step of a running block takes a fault, with the word exactly when it was fetched, or completes an instruction. -/
theorem runStep_fault_or_next (s : State) :
    (∃ f word, (∀ w, word = some w ↔ Fetches s w) ∧ runStep s = .next (haltStep s f word)) ∨
      ∃ i u, exec i (advance s) = .next u ∧ runStep s = .next (endStep u, resultOf i s) := by
  have fetched {w : Word} (hw : Fetches s w) (v : Word) : some w = some v ↔ Fetches s v :=
    ⟨fun e => Option.some.inj e ▸ hw, fun hv => congrArg some (fetches_unique hw hv)⟩
  obtain ⟨f, hf, e⟩ | ⟨w, hw, -, e⟩ | ⟨w, i, f, hw, -, -, -, e⟩ | ⟨w, i, u, -, -, -, hx, e⟩ := runStep_cases s
  · refine .inl ⟨f, none, fun v => ⟨nofun, fun hv => ?_⟩, e⟩
    rw [(fetch_eq_ok_iff s v).2 hv] at hf
    cases hf
  · exact .inl ⟨_, some w, fetched hw, e⟩
  · exact .inl ⟨f, some w, fetched hw, e⟩
  · exact .inr ⟨i, u, hx, e⟩

/-- Settles O13: a step that does not end running has taken a fault, which writes `STATUS` alone. -/
theorem faultsArePrecise : Obligations.FaultsArePrecise := by
  intro s t hrun h hhalt
  obtain ⟨f, word, hword, e⟩ | ⟨i, u, hx, e⟩ := runStep_fault_or_next s <;>
    rw [step_running hrun e] at h <;> cases h
  · exact ⟨⟨f, s.pc, word⟩, rfl, rfl, stepResult_running hrun e, hword⟩
  · exact absurd (endStep_running hrun hx) hhalt

/-! ### What halts a running block -/

/-- Advancing moves `PC` alone, and no instruction's own fault depends on it. -/
theorem ownFault_advance (s : State) (i : Instr) : ownFault (advance s) i = ownFault s i := by
  cases i <;> rfl

/-- A step ends running exactly when it runs an instruction that has no fault of its own. -/
theorem safeStep_iff (s : State) : SafeStep s ↔ ∃ i, RunsInstr s i ∧ ownFault s i = none := by
  constructor
  · rintro ⟨t, h, hrun⟩
    obtain ⟨-, ⟨f, w, rfl⟩ | ⟨i, u, hr, hx, -⟩⟩ := step_cases h
    · cases hrun
    · refine ⟨i, hr, ?_⟩
      obtain ⟨f, -, hfault⟩ | ⟨hnone, -⟩ := exec_cases i (advance s)
      · rw [hfault] at hx; cases hx
      · rwa [ownFault_advance] at hnone
  · rintro ⟨i, hr, hnone⟩
    obtain ⟨f, hsome, -⟩ | ⟨-, u, hx⟩ := exec_cases i (advance s)
    · rw [ownFault_advance, hnone] at hsome; cases hsome
    · exact ⟨endStep u, step_of_exec_next hr hx, endStep_running hr.1 hx⟩

theorem rangeFault_ne_none_iff {base len : Nat} : rangeFault base len ≠ none ↔ len ≠ 0 ∧ 0x1000 < base + len := by
  have hsize : memSize = 0x1000 := rfl
  simp [rangeFault, hsize]

/-- The instruction a block runs faults exactly on the operands its own rule names (R87, R91, R93, R119 to R123). -/
theorem ownFault_ne_none_iff {s : State} {i : Instr} (hr : RunsInstr s i) : ownFault s i ≠ none ↔
    (RunsInstr s .ret ∧ s.stack = []) ∨
    (∃ nnn, RunsInstr s (.call nnn) ∧ s.params.stackLimit = some s.stack.length) ∨
    (∃ x y n, RunsInstr s (.drw x y n) ∧ n ≠ 0 ∧ 0x1000 < s.i.toNat + n.toNat) ∨
    (∃ x, RunsInstr s (.ldBVx x) ∧ 0x1000 < s.i.toNat + 3) ∨
    (∃ x, (RunsInstr s (.ldMemVx x) ∨ RunsInstr s (.ldVxMem x)) ∧ 0x1000 ≤ s.i.toNat + x.toNat) ∨
    ∃ x, (RunsInstr s (.skp x) ∨ RunsInstr s (.sknp x)) ∧ 15 < (s.getV x).toNat := by
  simp only [runsInstr_iff_eq hr]
  cases i with
  | ret | call nnn => simp [ownFault]
  | drw x y n =>
    have hn : n.toNat ≠ 0 ↔ n ≠ 0 := not_congr (BitVec.toNat_inj (y := 0))
    simp [ownFault, rangeFault_ne_none_iff, hn]
  | ldBVx x => simp [ownFault, rangeFault_ne_none_iff]
  | ldMemVx x | ldVxMem x =>
    have hlast : 0x1000 < s.i.toNat + (x.toNat + 1) ↔ 0x1000 ≤ s.i.toNat + x.toNat := Nat.lt_succ_iff
    simp [ownFault, rangeFault_ne_none_iff, hlast]
  | skp x | sknp x =>
    have hkey : 16 ≤ (s.getV x).toNat ↔ 15 < (s.getV x).toNat := Iff.rfl
    simp [ownFault, hkey]
  -- every other instruction has no fault of its own, and the statement does not name it
  | _ => simp [ownFault]

/-- Settles O15: a block that runs no instruction failed at the fetch or at the decoder, and otherwise the instruction's own
fault decides. -/
theorem blockHaltsExactlyWhen : Obligations.BlockHaltsExactlyWhen := by
  intro s hrun
  rw [safeStep_iff]
  constructor
  · intro hunsafe
    obtain ⟨hodd, -⟩ | ⟨-, hout, -⟩ | ⟨w, hw, -⟩ := fetch_cases s
    · exact .inl hodd
    · exact .inr (.inl hout)
    · cases hd : decodeWord w with
      | none => exact .inr (.inr (.inl ⟨w, hw, hd⟩))
      | some i =>
        have hr : RunsInstr s i := ⟨hrun, w, hw, hd⟩
        exact .inr (.inr (.inr ((ownFault_ne_none_iff hr).1 fun hnone => hunsafe ⟨i, hr, hnone⟩)))
  · rintro hcause ⟨i, hr, hnone⟩
    have ⟨_, w, hw, hd⟩ := hr
    have ⟨heven, hlt, _⟩ := hw
    obtain hodd | hout | ⟨w', hw', hd'⟩ | hown := hcause
    · omega
    · omega
    · rw [fetches_unique hw' hw, hd] at hd'
      cases hd'
    · exact (ownFault_ne_none_iff hr).2 hown hnone

end Sys2Proof.Machine
end

section
/-! SUPPORT. The memory construction leaves, address by address, and the timers at the end of a step that wrote one
(70_reset_and_hazards.md R151, R153, R160; 45_timers_input.md R124 to R126). -/
namespace Sys2Proof.Machine

/-! ### A timer written in a step (R160) -/

/-- The step of an instruction that completes ends running with the registers the instruction left, and with its timers
counted down once with `PerStep`, kept with `External` (R79). -/
theorem exists_step_of_exec_next {s u : State} {i : Instr} (hr : RunsInstr s i) (hx : exec i (advance s) = .next u) :
    ∃ t, step s = .next t ∧ t.status = .running ∧ (∀ r, t.getV r = u.getV r) ∧
      (s.params.timerCoupling = .perStep → t.dt.toNat = u.dt.toNat - 1 ∧ t.st.toNat = u.st.toNat - 1) ∧
      (s.params.timerCoupling = .external → t.dt = u.dt ∧ t.st = u.st) := by
  have hstep := step_of_exec_next hr hx
  have hrun := endStep_running hr.1 hx
  obtain ⟨u', hx', -, -, hper, hext⟩ := timersCountEveryStep s _ i hr hstep hrun
  obtain rfl : u = u' := Host.Outcome.next.inj (hx.symm.trans hx')
  exact ⟨_, hstep, hrun, getV_endStep u, hper, hext⟩

/-- Settles O27: each move copies one byte, and the same step then counts down the timers the move has left. -/
theorem writtenTimerIsCountedInSameStep : Obligations.WrittenTimerIsCountedInSameStep := by
  refine fun s x => ⟨fun hr => ?_, fun hr => ?_, fun hr => ?_⟩
  · obtain ⟨t, hstep, hrun, -, hper, hext⟩ := exists_step_of_exec_next (u := (advance s).setDT (s.getV x)) hr rfl
    exact ⟨t, hstep, hrun, fun hc => (hper hc).1, fun hc => (hext hc).1⟩
  · obtain ⟨t, hstep, hrun, -, hper, hext⟩ := exists_step_of_exec_next (u := (advance s).setST (s.getV x)) hr rfl
    exact ⟨t, hstep, hrun, fun hc => (hper hc).2, fun hc => (hext hc).2⟩
  · obtain ⟨t, hstep, -, hv, hper, -⟩ := exists_step_of_exec_next (u := (advance s).setV x s.dt) hr rfl
    exact ⟨t, hstep, (hv x).trans (getV_setV_same _ x _), fun hc => (hper hc).1⟩

/-! ### Memory after construction (R153) -/

section
variable {p : Params} {image : List Byte}

/-- The image shows from `LOAD_ADDR` up; one with a byte in it is loaded only where it ends inside memory (R154, R156). -/
theorem byteAt_loadedImage (hp : p.wf = true) (hfits : image.length ≤ 0x1000 - p.loadAddr.toNat) {j : Nat}
    (hj : j < image.length) :
    ((blankState p).storeBytes p.loadAddr.toNat image).byteAt (p.loadAddr.toNat + j) = image[j] := by
  have hend : p.loadAddr.toNat + image.length ≤ memSize := by
    have hsize : memSize = 0x1000 := rfl
    omega
  exact byteAt_storeBytes image (inv_blankState hp).mem hj hend

/-- Outside the image the background shows. -/
theorem byteAt_outsideImage {a : Nat} (h : ¬ (p.loadAddr.toNat ≤ a ∧ a < p.loadAddr.toNat + image.length)) :
    ((blankState p).storeBytes p.loadAddr.toNat image).byteAt a = background p a :=
  (byteAt_storeBytes_other image _ h).trans (byteAt_blankState p a)

/-- The font shows whole from `FONT_BASE` up, where the image lies clear of it (R13). -/
theorem byteAt_font
    (hclear : p.fontBase.toNat + 80 ≤ p.loadAddr.toNat ∨ p.loadAddr.toNat + image.length ≤ p.fontBase.toNat)
    {k : Nat} (hk : k < 80) :
    ((blankState p).storeBytes p.loadAddr.toNat image).byteAt (p.fontBase.toNat + k) = p.fontData[k] := by
  rw [byteAt_outsideImage (by omega), background_font p hk]

end

/-- Settles O1: copying the image writes memory alone, so the registers are the blank state's; each address
shows the font, the image or neither. -/
theorem constructionSetsEveryPiece : Obligations.ConstructionSetsEveryPiece := by
  intro p image s hs
  obtain ⟨hp, himage, rfl⟩ := construct_eq_some_iff.1 hs
  obtain ⟨hfits, hclear⟩ := (imageWf_iff p image).1 himage
  have hfont (k : Nat) (hk : k < 80) := byteAt_font hclear hk
  have hload (j : Nat) (hj : j < image.length) := byteAt_loadedImage hp hfits hj
  have hzero (a : Nat) (_ : a < 0x1000) (hnofont : ¬ (p.fontBase.toNat ≤ a ∧ a < p.fontBase.toNat + 80))
      (hnoimage : ¬ (p.loadAddr.toNat ≤ a ∧ a < p.loadAddr.toNat + image.length)) :=
    (byteAt_outsideImage hnoimage).trans (background_outside hnofont)
  obtain ⟨m, hregs⟩ := storeBytes_eq image (blankState p) p.loadAddr.toNat
  rw [hregs] at hfont hload hzero ⊢
  exact ⟨getV_reset, rfl, rfl, rfl, rfl, fun _ hk => Vector.getElem_replicate hk, rfl, rfl, fbCell_fbClear, rfl, rfl, rfl,
    hfont, hload, hzero⟩

end Sys2Proof.Machine
end
